-- ==== Sys2Proof/Word.lean ====
section
/-! DEFINITION. The words of the emulate-the-emulator CORE (spec 00_scope.md R3, R5). -/

namespace Sys2Proof

/-- A `u8`: a general register, a memory cell, an immediate, a data address (R3 `XLEN`, `CELLW`, `IMMW`). -/
abbrev Byte := BitVec 8

/-- A `u16`: an instruction word, the instruction register, the program counter (R3 `ILEN`, `IRW`, `PCW`). -/
abbrev Word := BitVec 16

end Sys2Proof
end

