-- ==== Sys2Proof/Syntax.lean ====
section
/-! DEFINITION. The six instructions (spec 30_encoding.md R50, R54) and the toolchain's wider form of them (R60). -/

namespace Sys2Proof

/-- A register index, a `u2` (R50). There are four registers because a register field has two bits (R3
`NREG = 2^RIDXW`), so no index is out of range (R123). -/
abbrev Reg := Fin 4

/-- An instruction, with operands of exactly the ranges of R50. The operand order is the constructor order of R50:
destination, then `src1`, then `src2`; for the two-operand forms the register, then the 8-bit value. -/
inductive Instr where
  /-- `And(dst, src1, src2)`, R80 -/
  | and (dst src1 src2 : Reg)
  /-- `Mov(dst, value)`, R90 -/
  | mov (dst : Reg) (value : Byte)
  /-- `Add(dst, src1, src2)`, R81 -/
  | add (dst src1 src2 : Reg)
  /-- `Sub(dst, src1, src2)`, R82 -/
  | sub (dst src1 src2 : Reg)
  /-- `Ldr(dst, address)`, R95 -/
  | ldr (dst : Reg) (address : Byte)
  /-- `Str(src, address)`, R96 -/
  | str (src : Reg) (address : Byte)
deriving DecidableEq, Repr

/-- An instruction as the toolchain writes it, in the constructor notation of R64, with operands of any size: `encode`
"truncates operands wider than their field" (R60). The core never sees one. -/
inductive AsmInstr where
  | and (dst src1 src2 : Nat)
  | mov (dst value : Nat)
  | add (dst src1 src2 : Nat)
  | sub (dst src1 src2 : Nat)
  | ldr (dst address : Nat)
  | str (src address : Nat)
deriving DecidableEq, Repr

/-- The toolchain form of an instruction: the same operands as plain numbers. -/
def Instr.toAsm : Instr → AsmInstr
  | .and d s1 s2 => .and d.val s1.val s2.val
  | .mov d v => .mov d.val v.toNat
  | .add d s1 s2 => .add d.val s1.val s2.val
  | .sub d s1 s2 => .sub d.val s1.val s2.val
  | .ldr d a => .ldr d.val a.toNat
  | .str r a => .str r.val a.toNat

/-- The memory address an instruction names, for `Ldr` and `Str` (R97: the 8-bit field as it is). -/
def Instr.address? : Instr → Option Byte
  | .and _ _ _ => none
  | .mov _ _ => none
  | .add _ _ _ => none
  | .sub _ _ _ => none
  | .ldr _ a => some a
  | .str _ a => some a

/-- The register an instruction writes, if it writes one (R18, R63 `reg_we`, `reg_waddr`). -/
def Instr.destination? : Instr → Option Reg
  | .and d _ _ => some d
  | .mov d _ => some d
  | .add d _ _ => some d
  | .sub d _ _ => some d
  | .ldr d _ => some d
  | .str _ _ => none

end Sys2Proof
end

