-- ==== Sys2Proof/WellFormed.lean ====
section
/-! DEFINITION. What can be wrong with an instruction or a program before it runs: an operand outside its field
(spec 30_encoding.md R50), an address outside the memory (90_conflicts.md C2), a program that does not fit
(44_host_interface.md R105). -/

namespace Sys2Proof

/-- A register operand is in range: `0 <= idx < 4` (R50). -/
def registerInRange (r : Nat) : Bool := decide (r < 4)

/-- An immediate or address operand is in range: `0 <= v <= 255` (R50). -/
def byteInRange (v : Nat) : Bool := decide (v ≤ 255)

/-- Every operand of a toolchain instruction is in the range R50 gives it. -/
def AsmInstr.wellFormed : AsmInstr → Bool
  | .and d s1 s2 => registerInRange d && registerInRange s1 && registerInRange s2
  | .mov d v => registerInRange d && byteInRange v
  | .add d s1 s2 => registerInRange d && registerInRange s1 && registerInRange s2
  | .sub d s1 s2 => registerInRange d && registerInRange s1 && registerInRange s2
  | .ldr d a => registerInRange d && byteInRange a
  | .str r a => registerInRange r && byteInRange a

/-- The ranges of R50, asked of a machine instruction: its operand types already guarantee them. -/
def Instr.wellFormed (i : Instr) : Bool := i.toAsm.wellFormed

/-- The source's `0 <= address < memory capacity`, which the spec reads as "the condition under which the
instruction executes without fault" (90_conflicts.md C2; R95, R96). Decoding does not check it (R50). -/
def Instr.withinCapacity (capacity : Nat) (i : Instr) : Bool :=
  match i.address? with
  | none => true
  | some a => decide (a.toNat < capacity)

/-- A program fits a memory: `2 * len <= CAP` (R105, R120). -/
def programFits (capacity : Nat) (program : List Instr) : Bool := decide (2 * program.length ≤ capacity)

end Sys2Proof
end

