-- ==== Sys2Proof/Decode.lean ====
section
/-! DEFINITION. The instruction word (spec 30_encoding.md R51 to R60, R62): `decode`, total on every word and on every
byte sequence, and after it `encode`. -/

namespace Sys2Proof

/-- The word whose low byte is `lo` and whose high byte is `hi`, `lo + 256 * hi` (R32, R34: little-endian). -/
def wordOfBytes (lo hi : Byte) : Word := BitVec.ofNat 16 (lo.toNat + 256 * hi.toNat)

/-- Bits 7:0 of a word. -/
def lowByte (w : Word) : Byte := BitVec.ofNat 8 w.toNat

/-- Bits 15:8 of a word. -/
def highByte (w : Word) : Byte := BitVec.ofNat 8 (w.toNat / 256)

/-- `w[hi:lo]`, as R5 defines it: `(w >> lo) mod 2^(hi-lo+1)`. -/
def bits (w : Word) (hi lo : Nat) : Nat := (w.toNat >>> lo) % 2 ^ (hi - lo + 1)

/-- The opcode tag, `w[15:12]` (R51). -/
def tag (w : Word) : Nat := bits w 15 12

/-- The 2-bit register field of `w` whose low bit is bit `lo`, used directly as the index (R59). -/
def regField (w : Word) (lo : Nat) : Reg := Fin.ofNat 4 (bits w (lo + 1) lo)

/-- The immediate or address field `w[7:0]`, used as is (R53, R59). -/
def immField (w : Word) : Byte := BitVec.ofNat 8 (bits w 7 0)

/-- `src1 = w[1:0]` of format R3 (R52). -/
def src1Field (w : Word) : Reg := regField w 0

/-- `src2 = w[3:2]` of format R3 (R52). -/
def src2Field (w : Word) : Reg := regField w 2

/-- `dst = w[5:4]` of format R3 (R52). -/
def dstField (w : Word) : Reg := regField w 4

/-- `reg = w[9:8]` of format RI (R53). -/
def regRiField (w : Word) : Reg := regField w 8

/-- Why a word does not decode: the only cause is the tag (R55, R111). -/
inductive DecodeError where
  /-- "unknown opcode": the tag is 0 or 7 to 15 (R56). -/
  | unknownOpcode
deriving DecidableEq, Repr

/-- `decode(w)` (R55). Only the tag selects; the unused bits take no part (R57, the spec's decision D10, log entry 6). -/
def decode (w : Word) : Except DecodeError Instr :=
  match tag w with
  | 1 => .ok (.and (dstField w) (src1Field w) (src2Field w))
  | 2 => .ok (.mov (regRiField w) (immField w))
  | 3 => .ok (.add (dstField w) (src1Field w) (src2Field w))
  | 4 => .ok (.sub (dstField w) (src1Field w) (src2Field w))
  | 5 => .ok (.ldr (regRiField w) (immField w))
  | 6 => .ok (.str (regRiField w) (immField w))
  | _ => .error .unknownOpcode

/-- Why a byte sequence does not begin with an instruction. -/
inductive BytesRejected where
  /-- Fewer than the two bytes of a word; the core never meets this, a failed fetch being an AddressError (R71). -/
  | tooShort
  /-- The two bytes are a word that does not decode (R55). -/
  | undecodable (e : DecodeError)
deriving DecidableEq, Repr

/-- The instruction at the head of a byte sequence and the bytes after it, low byte first (R34, R62). -/
def decodeBytes : List Byte → Except BytesRejected (Instr × List Byte)
  | [] => .error .tooShort
  | [_] => .error .tooShort
  | lo :: hi :: rest =>
    match decode (wordOfBytes lo hi) with
    | .ok i => .ok (i, rest)
    | .error e => .error (.undecodable e)

/-- The word of `spec/opcode_table.json`'s bit numbering, laid out in bytes and given to the decoder. -/
def decodeTableWord (nbits w : Nat) : Option Instr :=
  match decodeBytes [BitVec.ofNat 8 (w % 2 ^ nbits), BitVec.ofNat 8 (w % 2 ^ nbits / 256)] with
  | .ok (i, _) => some i
  | .error _ => none

/-- The word of format R3 with this tag and operands, unused bits 0 (R52, R60). -/
def packR3 (tag dst src1 src2 : Nat) : Word :=
  BitVec.ofNat 16 (tag * 4096 + (dst % 4) * 16 + (src2 % 4) * 4 + src1 % 4)

/-- The word of format RI with this tag and operands, unused bits 0 (R53, R60). -/
def packRI (tag reg imm : Nat) : Word :=
  BitVec.ofNat 16 (tag * 4096 + (reg % 4) * 256 + imm % 256)

/-- `encode` of the toolchain (R60): operands wider than their field are truncated, unused bits are written 0. -/
def AsmInstr.encode : AsmInstr → Word
  | .and d s1 s2 => packR3 1 d s1 s2
  | .mov d v => packRI 2 d v
  | .add d s1 s2 => packR3 3 d s1 s2
  | .sub d s1 s2 => packR3 4 d s1 s2
  | .ldr d a => packRI 5 d a
  | .str r a => packRI 6 r a

/-- `encode(i)` of an instruction whose operands are in range (R60): there the truncation changes nothing. -/
def encode (i : Instr) : Word := i.toAsm.encode

/-- The instruction a toolchain instruction stands for once its operands are cut to their fields (R60). -/
def AsmInstr.narrow : AsmInstr → Instr
  | .and d s1 s2 => .and (Fin.ofNat 4 d) (Fin.ofNat 4 s1) (Fin.ofNat 4 s2)
  | .mov d v => .mov (Fin.ofNat 4 d) (BitVec.ofNat 8 v)
  | .add d s1 s2 => .add (Fin.ofNat 4 d) (Fin.ofNat 4 s1) (Fin.ofNat 4 s2)
  | .sub d s1 s2 => .sub (Fin.ofNat 4 d) (Fin.ofNat 4 s1) (Fin.ofNat 4 s2)
  | .ldr d a => .ldr (Fin.ofNat 4 d) (BitVec.ofNat 8 a)
  | .str r a => .str (Fin.ofNat 4 r) (BitVec.ofNat 8 a)

/-- A program as it lies in memory from offset 0: each word low byte first (R62). -/
def programBytes : List Instr → List Byte
  | [] => []
  | i :: rest => lowByte (encode i) :: highByte (encode i) :: programBytes rest

end Sys2Proof
end

