-- ==== Sys2Proof/Config.lean ====
section
/-! DEFINITION. The parameters of the core that are values and not widths (spec 00_scope.md R3, R4).
The widths of R3 are the types of `Word.lean` and `Syntax.lean`. Nothing is left free on this hardware: every
value here is stated by R3 or R19. -/

namespace Sys2Proof.Config

/-- `CAP` of this hardware, 256 bytes (R3, the spec's decision D2). The type admits exactly the capacities
0 to 256 that R4 admits; a capacity above 256, to which no rule gives a meaning, cannot be written down. -/
def capacity : Fin 257 := 256

/-- `RESET_PC` (R3, R19; the spec's decision D3). -/
def resetPc : Word := 0

/-- `RESET_X`, the value of each general register after reset (R3, R19; the spec's decision D4). -/
def resetX : Byte := 0

/-- `RESET_IR` (R3, R19; the spec's decision D5). -/
def resetIr : Word := 0

end Sys2Proof.Config
end

