-- ==== Sys2Proof/Machine/State.lean ====
section
/-! DEFINITION. The state of the core (spec 10_state.md R10 to R19) as plain data, and the machine right after reset. -/

namespace Sys2Proof.Machine

/-- The four general registers `x[0]` to `x[3]` (R10). None is hard-wired. -/
structure RegFile where
  x0 : Byte
  x1 : Byte
  x2 : Byte
  x3 : Byte
deriving DecidableEq, Repr

/-- The memory (R13, R30, R31): a capacity fixed when it is built (R4) and its cells. A cell not listed holds 0, the
value every cell is built with (R31). `Fin 257` is the range of R3 and R4 (log entry 1). -/
structure Memory where
  capacity : Fin 257
  cells : List Host.Cell
deriving DecidableEq, Repr

/-- Addresses strictly rising. -/
def cellsRising : List Host.Cell → Bool
  | [] => true
  | [_] => true
  | (a, _) :: (b, w) :: rest => decide (a < b) && cellsRising ((b, w) :: rest)

/-- The canonical form of a memory: listed addresses strictly rising, each below the capacity (R30), no listed cell
equal to what an unlisted one reads as (R31). -/
def Memory.wf (m : Memory) : Bool :=
  cellsRising m.cells && m.cells.all (fun c => decide (c.1 < m.capacity.val) && decide (c.2 ≠ 0))

/-- What the fault latch records (R14, R110): the fatal error and, for an AddressError, its phase. -/
inductive Cause where
  /-- DecodeError, raised in the decode phase (R111) -/
  | decodeError
  /-- AddressError raised in the fetch phase (R112) -/
  | addressErrorFetch
  /-- AddressError raised in the execute phase of `Ldr` or `Str` (R112) -/
  | addressErrorExecute
deriving DecidableEq, Repr

/-- The whole state (R10 to R14). `fault` is the latch: `none` is the spec's `None`. -/
structure State where
  regs : RegFile
  pc : Word
  ir : Word
  fault : Option Cause
  mem : Memory
deriving DecidableEq, Repr

/-- The reasons a step of this model stops with a fault: none. Each fatal error of the spec leaves a state that the
spec describes (R113, R114), so it is a next state with the latch set (log entry 4). -/
inductive Fault where
deriving DecidableEq, Repr

/-- The reasons a step of this model refuses. -/
inductive Refusal where
  /-- Raised by `exec` for an instruction without a meaning (safe). Every instruction has one, so nothing raises it. -/
  | notModelled (mnemonic : String)
deriving DecidableEq, Repr

/-- A memory as the host builds it: `CAP` cells, all zero (R31, R103). -/
def Memory.build (capacity : Fin 257) : Memory := { capacity := capacity, cells := [] }

/-- The core right after reset, bound to the memory `m`, which reset does not touch (R19, R130). -/
def State.resetWith (m : Memory) : State :=
  { regs := { x0 := Config.resetX, x1 := Config.resetX, x2 := Config.resetX, x3 := Config.resetX }
    pc := Config.resetPc
    ir := Config.resetIr
    fault := none
    mem := m }

/-- The machine right after reset, with the memory as it is built and no program loaded (R19, R31, R103; log entry 3). -/
def State.reset : State := State.resetWith (Memory.build Config.capacity)

end Sys2Proof.Machine
end

