-- ==== Sys2Proof/Machine/Ops.lean ====
section
/-! DEFINITION. The named operations over registers and memory (spec 10_state.md R10, 20_memory.md R32, R33), the
fetch phase (40_cycle.md R71) and the taking of a fatal error (60_exceptions.md R113). -/

namespace Sys2Proof.Machine

/-- `x[i]` (R10). -/
def RegFile.get (f : RegFile) (i : Reg) : Byte :=
  match i with
  | 0 => f.x0
  | 1 => f.x1
  | 2 => f.x2
  | 3 => f.x3

/-- `x[i] <- v` (R10): the other three are left as they are. -/
def RegFile.set (f : RegFile) (i : Reg) (v : Byte) : RegFile :=
  match i with
  | 0 => { f with x0 := v }
  | 1 => { f with x1 := v }
  | 2 => { f with x2 := v }
  | 3 => { f with x3 := v }

/-- The value listed for an address, 0 where none is (R31). -/
def cellAt : List Host.Cell → Nat → Byte
  | [], _ => 0
  | (b, w) :: rest, a => if b = a then w else cellAt rest a

/-- Put a cell in its place in a rising list that does not list its address. -/
def insertCell : List Host.Cell → Host.Cell → List Host.Cell
  | [], c => [c]
  | b :: rest, c => if c.1 < b.1 then c :: b :: rest else b :: insertCell rest c

/-- `mem[a]`, the cell at address `a`; the bound test is the accesses' own (`memRead1`). -/
def Memory.get (m : Memory) (a : Nat) : Byte := cellAt m.cells a

/-- `mem[a] <- v`, every other cell as before, in canonical form: a cell set to 0 is listed no longer. -/
def Memory.set (m : Memory) (a : Nat) (v : Byte) : Memory :=
  let others := m.cells.filter (fun c => decide (c.1 ≠ a))
  { m with cells := if v = 0 then others else insertCell others (a, v) }

/-- `AddressError(addr)` of R32 and R33: an access to an address that does not exist. The latch does not keep the
address (the spec's decision D21). -/
structure AddressError where
  addr : Nat
deriving DecidableEq, Repr

/-- `MemRead(addr, 1)` (R32). The test is on the exact integer. -/
def memRead1 (m : Memory) (addr : Nat) : Except AddressError Byte :=
  if m.capacity.val ≤ addr then .error ⟨addr⟩ else .ok (m.get addr)

/-- `MemRead(addr, 2)` (R32, R34): both addresses are tested before either byte is used, low byte at the lower one. -/
def memRead2 (m : Memory) (addr : Nat) : Except AddressError Word :=
  if m.capacity.val ≤ addr then .error ⟨addr⟩
  else if m.capacity.val ≤ addr + 1 then .error ⟨addr + 1⟩
  else .ok (wordOfBytes (m.get addr) (m.get (addr + 1)))

/-- `MemWrite(addr, 1, v)` (R33): a write that raises changes no cell. -/
def memWrite1 (m : Memory) (addr : Nat) (v : Byte) : Except AddressError Memory :=
  if m.capacity.val ≤ addr then .error ⟨addr⟩ else .ok (m.set addr v)

/-- `x[i]` of a state. -/
def State.readReg (s : State) (i : Reg) : Byte := s.regs.get i

/-- `x[i] <- v` in a state. -/
def State.writeReg (s : State) (i : Reg) (v : Byte) : State := { s with regs := s.regs.set i v }

/-- The state with its memory replaced. -/
def State.setMem (s : State) (m : Memory) : State := { s with mem := m }

/-- The two register writes of a fetch that succeeds: `ir <- w`, `pc <- pc + 2` (R71). `pc` does not wrap there: it is
below `CAP`, so below 256 (R75; log entry 13). -/
def State.afterFetch (s : State) (w : Word) : State := { s with ir := w, pc := s.pc + 2 }

/-- `raise E` (R113): the latch takes the code and the step ends; nothing is saved and `pc` stays as it is. -/
def raise (c : Cause) (s : State) : State := { s with fault := some c }

/-- The core is halted: the latch is set (R70, R116). There is no return from a fatal error but reset (R116). -/
def State.halted (s : State) : Bool := s.fault.isSome

/-- The fetch phase (R71). When the read fails neither `ir` nor `pc` changes (the spec's decision D8, log entry 10). -/
def fetch (s : State) : Except AddressError State :=
  match memRead2 s.mem s.pc.toNat with
  | .ok w => .ok (s.afterFetch w)
  | .error e => .error e

/-- The 2-bit code of the latch (R14, R110). -/
def faultCode : Option Cause → BitVec 2
  | none => 0
  | some .decodeError => 1
  | some .addressErrorFetch => 2
  | some .addressErrorExecute => 3

end Sys2Proof.Machine
end

