-- ==== Sys2Proof/Machine/Flags.lean ====
section
/-! DEFINITION. There are no flags (spec 10_state.md R15): no carry, borrow, zero, negative or overflow indication is
produced anywhere. What another machine would put into flags is discarded here, where an exact result is cut to a
register's width (41_alu.md R83). -/

namespace Sys2Proof.Machine

/-- `v mod 256` of an exact integer, with the non-negative remainder (R5, R83): carry and borrow are discarded. -/
def wrap8 (v : Int) : Byte := BitVec.ofInt 8 v

end Sys2Proof.Machine
end

