-- ==== Sys2Proof/Machine/Operands.lean ====
section
/-! DEFINITION. The operand forms: a register by its 2-bit index, an 8-bit immediate, an absolute 8-bit address (spec
30_encoding.md R59, 43_load_store.md R97). -/

namespace Sys2Proof.Machine

/-- Both source registers of a format R3 instruction, read before anything is written (R84). -/
def readSources (src1 src2 : Reg) (s : State) : Byte × Byte := (s.readReg src1, s.readReg src2)

/-- The immediate operand of `Mov`: the field as it is, neither extended nor scaled (R59, R90). -/
def immediate (value : Byte) : Byte := value

/-- The effective address of `Ldr` and `Str`: the field as the integer 0 to 255, with no base, index or wrap (R97). -/
def effectiveAddress (address : Byte) : Nat := address.toNat

end Sys2Proof.Machine
end

