-- ==== Sys2Proof/Machine/Alu.lean ====
section
/-! DEFINITION. The ALU and the instructions And, Add, Sub (spec 41_alu.md R80 to R85): their execute phase. -/

namespace Sys2Proof.Machine

/-- The operation select of the ALU (R85, R63 `alu_op`). -/
inductive AluOp where
  | and
  | add
  | sub
deriving DecidableEq, Repr

/-- The ALU (R85): no carry in, no carry out, no flags, no state. -/
def alu (op : AluOp) (a b : Byte) : Byte :=
  match op with
  | .and => a &&& b
  | .add => wrap8 (a.toNat + b.toNat)
  | .sub => wrap8 (a.toNat - b.toNat)

/-- An ALU instruction: both sources read, then the destination written (R84). -/
def aluInto (op : AluOp) (dst src1 src2 : Reg) (s : State) : State :=
  let sources := readSources src1 src2 s
  s.writeReg dst (alu op sources.1 sources.2)

/-- `And(dst, src1, src2)` (R80). -/
def execAnd (dst src1 src2 : Reg) (s : State) : Host.Outcome State Fault Refusal :=
  .next (aluInto .and dst src1 src2 s)

/-- `Add(dst, src1, src2)` (R81). -/
def execAdd (dst src1 src2 : Reg) (s : State) : Host.Outcome State Fault Refusal :=
  .next (aluInto .add dst src1 src2 s)

/-- `Sub(dst, src1, src2)` (R82): the minuend is the register named by `src1`. -/
def execSub (dst src1 src2 : Reg) (s : State) : Host.Outcome State Fault Refusal :=
  .next (aluInto .sub dst src1 src2 s)

end Sys2Proof.Machine
end

