-- ==== Sys2Proof/Machine/LoadStore.lean ====
section
/-! DEFINITION. The instructions Ldr and Str (spec 43_load_store.md R95 to R97): their execute phase. -/

namespace Sys2Proof.Machine

/-- `Ldr(dst, address)` (R95). An address at or above `CAP` raises: `x[dst]` and memory are unchanged. -/
def execLdr (dst : Reg) (address : Byte) (s : State) : Host.Outcome State Fault Refusal :=
  match memRead1 s.mem (effectiveAddress address) with
  | .ok v => .next (s.writeReg dst v)
  | .error _ => .next (raise .addressErrorExecute s)

/-- `Str(src, address)` (R96). An address at or above `CAP` raises: memory is unchanged. -/
def execStr (src : Reg) (address : Byte) (s : State) : Host.Outcome State Fault Refusal :=
  match memWrite1 s.mem (effectiveAddress address) (s.readReg src) with
  | .ok m => .next (s.setMem m)
  | .error _ => .next (raise .addressErrorExecute s)

end Sys2Proof.Machine
end

