-- ==== Sys2Proof/Machine/Mov.lean ====
section
/-! DEFINITION. The instruction Mov (spec 42_mov.md R90): its execute phase. -/

namespace Sys2Proof.Machine

/-- `Mov(dst, value)` (R90). -/
def execMov (dst : Reg) (value : Byte) (s : State) : Host.Outcome State Fault Refusal :=
  .next (s.writeReg dst (immediate value))

end Sys2Proof.Machine
end

