-- ==== Sys2Proof/Machine/Dispatch.lean ====
section
/-! DEFINITION. The execute phase (spec 40_cycle.md R73): one arm per instruction. -/

namespace Sys2Proof.Machine

/-- `execute(i)` (R73), on the state the fetch phase has left: `pc` already advanced, `ir` holding the word (R71). -/
def exec (i : Instr) (s : State) : Host.Outcome State Fault Refusal :=
  match i with
  | .and dst src1 src2 => Sys2Proof.Machine.execAnd dst src1 src2 s
  | .mov dst value => Sys2Proof.Machine.execMov dst value s
  | .add dst src1 src2 => Sys2Proof.Machine.execAdd dst src1 src2 s
  | .sub dst src1 src2 => Sys2Proof.Machine.execSub dst src1 src2 s
  | .ldr dst address => Sys2Proof.Machine.execLdr dst address s
  | .str src address => Sys2Proof.Machine.execStr src address s

end Sys2Proof.Machine
end

