-- ==== Sys2Proof/Machine/Step.lean ====
section
/-! DEFINITION. One step of the core: fetch, decode, execute (spec 40_cycle.md R70 to R73). -/

namespace Sys2Proof.Machine

/-- `step` (R70). A halted core changes nothing; otherwise the phases follow in order and the first error raised ends
the step (R115), keeping the writes made before it (R114). -/
def step (s : State) : Host.Outcome State Fault Refusal :=
  if s.halted then .next s
  else
    match fetch s with
    | .error _ => .next (raise .addressErrorFetch s)
    | .ok t =>
      match decode t.ir with
      | .error _ => .next (raise .decodeError t)
      | .ok i => exec i t

/-- The state with the table word `w` stored at `pc` and `pc + 1`, low byte first, where the next step fetches it.
The host's write is bound by the capacity as every access is: where a byte does not exist nothing is stored, and a
halted core stays halted (log entry 7). -/
def State.withFetchWord (s : State) (nbits w : Nat) : State :=
  if s.pc.toNat + 1 < s.mem.capacity.val then
    s.setMem ((s.mem.set s.pc.toNat (BitVec.ofNat 8 (w % 2 ^ nbits))).set (s.pc.toNat + 1)
      (BitVec.ofNat 8 (w % 2 ^ nbits / 256)))
  else s

end Sys2Proof.Machine
end

