-- ==== Sys2Proof/Machine/Bus.lean ====
section
/-! DEFINITION. The memory interface (spec 44_host_interface.md R101): the transactions one step issues, in order. -/

namespace Sys2Proof.Machine

/-- A transaction of the core with the memory, all of one byte (R101). -/
inductive Transaction where
  /-- fetch read of the low byte, at `pc` -/
  | fetchLow (addr : Nat) (data : Byte)
  /-- fetch read of the high byte, at `pc + 1` -/
  | fetchHigh (addr : Nat) (data : Byte)
  /-- data read of `Ldr` -/
  | dataRead (addr : Nat) (data : Byte)
  /-- data write of `Str` -/
  | dataWrite (addr : Nat) (data : Byte)
deriving DecidableEq, Repr

/-- The address a transaction presents to the memory. -/
def Transaction.addr : Transaction → Nat
  | .fetchLow a _ => a
  | .fetchHigh a _ => a
  | .dataRead a _ => a
  | .dataWrite a _ => a

/-- The data transactions of an instruction's execute phase: at most one, none where the bound test fails (R101). -/
def dataTransactions (i : Instr) (s : State) : List Transaction :=
  match i with
  | .and _ _ _ => []
  | .mov _ _ => []
  | .add _ _ _ => []
  | .sub _ _ _ => []
  | .ldr _ a =>
    if effectiveAddress a < s.mem.capacity.val then [.dataRead (effectiveAddress a) (s.mem.get (effectiveAddress a))] else []
  | .str r a => if effectiveAddress a < s.mem.capacity.val then [.dataWrite (effectiveAddress a) (s.readReg r)] else []

/-- The transactions of one step: the two fetch reads, low byte first (the spec's decision D13), then at most one data
transaction (R40, R101). A halted core and a failed fetch issue none: the bound test comes before any access (R101). -/
def transactions (s : State) : List Transaction :=
  if s.halted then []
  else
    match fetch s with
    | .error _ => []
    | .ok t =>
      [.fetchLow s.pc.toNat (s.mem.get s.pc.toNat), .fetchHigh (s.pc.toNat + 1) (s.mem.get (s.pc.toNat + 1))] ++
        match decode t.ir with
        | .error _ => []
        | .ok i => dataTransactions i t

/-- What one transaction does to the memory array: only a data write changes it (R37, R101). -/
def Memory.serve (m : Memory) : Transaction → Memory
  | .fetchLow _ _ => m
  | .fetchHigh _ _ => m
  | .dataRead _ _ => m
  | .dataWrite a v => m.set a v

end Sys2Proof.Machine
end

