-- ==== Sys2Proof/Machine/Control.lean ====
section
/-! DEFINITION. The instruction decoder as a hardware block (spec 30_encoding.md R63) and the step driven by its outputs.
`Step.lean` is the step of the rules; this file is the block's own account of it. -/

namespace Sys2Proof.Machine

/-- What is written to the register file (R63 `reg_wsel`). -/
inductive WriteSelect where
  | alu
  | imm
  | memory
deriving DecidableEq, Repr

/-- The decoder's outputs (R63). An output the table calls unused is `none` there: the table gives it no value
(log entry 14). `mem_wdata` is a register read and stands below as `Control.memWdata`. -/
structure Control where
  tag : BitVec 4
  illegal : Bool
  fmtR3 : Bool
  fmtRi : Bool
  rs1 : Reg
  rs2 : Reg
  rdR3 : Reg
  regRi : Reg
  imm : Byte
  aluOp : Option AluOp
  regWe : Bool
  regWaddr : Option Reg
  regWsel : Option WriteSelect
  memRe : Bool
  memWe : Bool
  memAddr : Option Byte
deriving DecidableEq, Repr

/-- The decoder (R63): combinational, its input is `ir`. -/
def decoderOutputs (ir : Word) : Control :=
  let t := tag ir
  let r3 := t == 1 || t == 3 || t == 4
  let ri := t == 2 || t == 5 || t == 6
  { tag := BitVec.ofNat 4 t
    illegal := t == 0 || decide (7 ≤ t)
    fmtR3 := r3
    fmtRi := ri
    rs1 := src1Field ir
    rs2 := src2Field ir
    rdR3 := dstField ir
    regRi := regRiField ir
    imm := immField ir
    aluOp := if t = 1 then some .and else if t = 3 then some .add else if t = 4 then some .sub else none
    regWe := decide (1 ≤ t) && decide (t ≤ 5)
    regWaddr := if r3 then some (dstField ir) else if t = 2 ∨ t = 5 then some (regRiField ir) else none
    regWsel := if r3 then some .alu else if t = 2 then some .imm else if t = 5 then some .memory else none
    memRe := t == 5
    memWe := t == 6
    memAddr := if t = 5 ∨ t = 6 then some (immField ir) else none }

/-- The data access is out of range: it, and with it the register write of a load, is suppressed (R63). -/
def Control.suppressed (c : Control) (capacity : Nat) : Bool :=
  match c.memAddr with
  | none => false
  | some a => decide (capacity ≤ a.toNat)

/-- The value the write port is given: the ALU's result, the immediate or the memory read data (R63 `reg_wsel`). -/
def Control.writeData (c : Control) (s : State) : Option Byte :=
  match c.regWsel with
  | none => none
  | some .alu => c.aluOp.map (fun op => alu op (s.readReg c.rs1) (s.readReg c.rs2))
  | some .imm => some c.imm
  | some .memory => c.memAddr.map (fun a => s.mem.get a.toNat)

/-- The register file at the end of the step: the one write port, where `reg_we` allows it (R63, R84). -/
def Control.writeBack (c : Control) (s : State) : RegFile :=
  match c.regWe, c.regWaddr, c.writeData s with
  | true, some d, some v => s.regs.set d v
  | _, _, _ => s.regs

/-- `mem_wdata`, the store data: `x[reg_ri]` (R63). -/
def Control.memWdata (c : Control) (s : State) : Byte := s.readReg c.regRi

/-- The memory at the end of the step: `mem_wdata` to `mem_addr`, where `mem_we` allows it (R63). -/
def Control.store (c : Control) (s : State) : Memory :=
  match c.memWe, c.memAddr with
  | true, some a => s.mem.set a.toNat (c.memWdata s)
  | _, _ => s.mem

/-- The execute phase as the decoder's outputs drive it. -/
def Control.execute (c : Control) (s : State) : State :=
  if c.suppressed s.mem.capacity.val then raise .addressErrorExecute s
  else { s with regs := c.writeBack s, mem := c.store s }

/-- One step of the blocks: the sequencer, with the decoder's outputs in place of a decoded instruction. -/
def blockStep (s : State) : State :=
  if s.halted then s
  else
    match fetch s with
    | .error _ => raise .addressErrorFetch s
    | .ok t => if (decoderOutputs t.ir).illegal then raise .decodeError t else (decoderOutputs t.ir).execute t

end Sys2Proof.Machine
end

