-- ==== Sys2Proof/Machine/HostInterface.lean ====
section
/-! DEFINITION. What the host does to the core (spec 44_host_interface.md R102 to R107, 40_cycle.md R76,
60_exceptions.md R110 to R120, 70_reset_and_hazards.md R130). -/

namespace Sys2Proof.Machine

/-- Reset (R130): every element of the core at its reset value, the memory untouched. -/
def State.applyReset (s : State) : State := State.resetWith s.mem

/-- The kinds of error (R110). `loadError` is the host's own and no state of the core (R120). -/
inductive ErrorKind where
  | decodeError
  | addressError
  | loadError
deriving DecidableEq, Repr

/-- The kind of a latched error: codes 2 and 3 are one kind (R14, R110). -/
def Cause.kind : Cause → ErrorKind
  | .decodeError => .decodeError
  | .addressErrorFetch => .addressError
  | .addressErrorExecute => .addressError

/-- What the host can read between steps (R104). -/
structure Observation where
  pc : Word
  ir : Word
  regs : RegFile
  fault : BitVec 2
deriving DecidableEq, Repr

/-- The read accessors (R104): they change nothing. -/
def observe (s : State) : Observation := { pc := s.pc, ir := s.ir, regs := s.regs, fault := faultCode s.fault }

/-- The error a step or a run reports to the host (R102, R117): the value of the latch after it, as its kind. -/
def reportedError (s : State) : Option ErrorKind := s.fault.map Cause.kind

/-- The host's read of a memory cell, between runs (R104, R106); it too is bound by the capacity (R30). -/
def inspectMemory (s : State) (a : Nat) : Except AddressError Byte := memRead1 s.mem a

/-- The offending address of a latched AddressError, as the host recovers it (R112). -/
def State.offendingAddress (s : State) : Option Nat :=
  match s.fault with
  | none => none
  | some .decodeError => none
  | some .addressErrorFetch => if s.mem.capacity.val ≤ s.pc.toNat then some s.pc.toNat else some (s.pc.toNat + 1)
  | some .addressErrorExecute => some (immField s.ir).toNat

/-- The address of the instruction whose decode or execute phase raised: `pc - 2` (R111, R112). -/
def State.offendingInstruction (s : State) : Option Nat :=
  match s.fault with
  | none => none
  | some .decodeError => some (s.pc.toNat - 2)
  | some .addressErrorFetch => none
  | some .addressErrorExecute => some (s.pc.toNat - 2)

/-- `run(n)` (R76): `n` steps, none attempted after the first that leaves the latch set. -/
def run : Nat → State → Host.Outcome State Fault Refusal
  | 0, s => .next s
  | n + 1, s =>
    match step s with
    | .next t => if t.halted then .next t else run n t
    | .fault r => .fault r
    | .refused r => .refused r

/-- The serialized length of a program exceeds the capacity (R105, R120). -/
inductive LoadError where
  | tooLong
deriving DecidableEq, Repr

/-- The loader's loop from instruction `i` on: word `i` at offsets `2*i` (low byte) and `2*i + 1` (high byte) (R105). -/
def Memory.writeProgram (m : Memory) (i : Nat) : List Instr → Memory
  | [] => m
  | instr :: rest =>
    ((m.set (2 * i) (lowByte (encode instr))).set (2 * i + 1) (highByte (encode instr))).writeProgram (i + 1) rest

/-- `load_program` (R105): the length check comes first, so a failing load writes nothing (the spec's decision D15). -/
def Memory.loadProgram (m : Memory) (program : List Instr) : Except LoadError Memory :=
  if programFits m.capacity.val program then .ok (m.writeProgram 0 program) else .error .tooLong

/-- A session of the host (R107): the memory is being built and loaded, or the core is bound to it. -/
inductive Session where
  | building (m : Memory)
  | attached (s : State)
deriving DecidableEq, Repr

/-- The host's commands (R102, R103, R105). Building the memory begins a session: `Session.building (Memory.build cap)`. -/
inductive HostCommand where
  | loadProgram (program : List Instr)
  | reset
  | step
  | run (n : Nat)
deriving DecidableEq, Repr

/-- Why a command does not take place. -/
inductive HostError where
  /-- `load_program` reported a LoadError; nothing may be executed after it (R105, R120). -/
  | load (e : LoadError)
  /-- `step` or `run` before the core has been reset and bound to a memory (R107). -/
  | noCore
  /-- `load_program` after the first reset. While the core runs R106 forbids it; while it is idle this is the model's
  choice (log entry 11). -/
  | memoryOwned
  /-- A step answered a refusal; no instruction of this model does (log entry 4). -/
  | notExecuted
deriving DecidableEq, Repr

/-- The session after a step or a run. -/
def Session.ofOutcome : Host.Outcome State Fault Refusal → Except HostError Session
  | .next s => .ok (.attached s)
  | .fault _ => .error .notExecuted
  | .refused _ => .error .notExecuted

/-- One command (R107). The core is bound to the memory by the first reset; a later reset keeps memory (R130). -/
def Session.apply (c : HostCommand) (h : Session) : Except HostError Session :=
  match c, h with
  | .loadProgram p, .building m =>
    match m.loadProgram p with
    | .ok m' => .ok (.building m')
    | .error e => .error (.load e)
  | .loadProgram _, .attached _ => .error .memoryOwned
  | .reset, .building m => .ok (.attached (State.resetWith m))
  | .reset, .attached s => .ok (.attached s.applyReset)
  | .step, .building _ => .error .noCore
  | .step, .attached s => Session.ofOutcome (Sys2Proof.Machine.step s)
  | .run _, .building _ => .error .noCore
  | .run n, .attached s => Session.ofOutcome (Sys2Proof.Machine.run n s)

/-- A list of commands in order; the first that does not take place ends the session with its error. -/
def Session.script : List HostCommand → Session → Except HostError Session
  | [], h => .ok h
  | c :: rest, h =>
    match h.apply c with
    | .ok h' => Session.script rest h'
    | .error e => .error e

end Sys2Proof.Machine
end

