-- ==== Sys2Proof/Safety.lean ====
section
/-! DEFINITION. The terms the claims use: frames, the fetch that a state is about to do, and the invariant of a run. -/

namespace Sys2Proof.Machine

/-- `t` differs from `s` at most in register `d`: the frame of And, Add, Sub, Mov and of Ldr (R18). -/
def SameExceptReg (d : Reg) (s t : State) : Prop :=
  (∀ r, r ≠ d → t.readReg r = s.readReg r) ∧ t.pc = s.pc ∧ t.ir = s.ir ∧ t.fault = s.fault ∧
    t.mem.capacity = s.mem.capacity ∧ ∀ a, t.mem.get a = s.mem.get a

/-- `t` differs from `s` at most in the memory byte at address `a`: the frame of Str (R18). -/
def SameExceptByte (a : Nat) (s t : State) : Prop :=
  (∀ r, t.readReg r = s.readReg r) ∧ t.pc = s.pc ∧ t.ir = s.ir ∧ t.fault = s.fault ∧
    t.mem.capacity = s.mem.capacity ∧ ∀ b, b ≠ a → t.mem.get b = s.mem.get b

/-- `t` differs from `s` at most in the latch: the frame of a fatal error (R113). -/
def SameExceptFault (s t : State) : Prop :=
  (∀ r, t.readReg r = s.readReg r) ∧ t.pc = s.pc ∧ t.ir = s.ir ∧
    t.mem.capacity = s.mem.capacity ∧ ∀ a, t.mem.get a = s.mem.get a

/-- The core is not halted and both bytes at `pc` exist: the fetch phase of the next step succeeds (R71). -/
def FetchSucceeds (s : State) : Prop := s.fault = none ∧ s.pc.toNat + 1 < s.mem.capacity.val

/-- The word at `pc`, low byte at the lower address (R34). -/
def wordAtPc (s : State) : Word := wordOfBytes (s.mem.get s.pc.toNat) (s.mem.get (s.pc.toNat + 1))

/-- What a set latch says of the state (R111, R112): the error it records can be read off `ir`, `pc` and the memory. -/
def FaultExplained (s : State) : Prop :=
  match s.fault with
  | none => True
  | some .decodeError =>
    (tag s.ir = 0 ∨ 7 ≤ tag s.ir) ∧ 2 ≤ s.pc.toNat ∧ memRead2 s.mem (s.pc.toNat - 2) = .ok s.ir
  | some .addressErrorFetch => s.mem.capacity.val ≤ s.pc.toNat + 1
  | some .addressErrorExecute =>
    (tag s.ir = 5 ∨ tag s.ir = 6) ∧ s.mem.capacity.val ≤ (immField s.ir).toNat ∧ 2 ≤ s.pc.toNat ∧
      memRead2 s.mem (s.pc.toNat - 2) = .ok s.ir

/-- The invariant of a run: memory in canonical form, `pc` even and at most `CAP` (R75), the latch explained. -/
structure Inv (s : State) : Prop where
  memWf : s.mem.wf = true
  pcEven : s.pc.toNat % 2 = 0
  pcBound : s.pc.toNat ≤ s.mem.capacity.val
  faultExplained : FaultExplained s

end Sys2Proof.Machine
end

