-- ==== Sys2Proof/Certificates/Slice0/Obligations.lean ====
section
/-! DEFINITION. The statements about the model, one definition each (OBLIGATIONS.json lists them). -/

open Sys2Proof Sys2Proof.Machine

/-! Encoding: spec 30_encoding.md. -/

/-- R52, R53, R55: every 16-bit word, written as its fields from the most significant bit down, decodes to the
instruction its tag names with each operand from its own field, or fails where the tag is 0 or 7 to 15. That the
unused bits `u` play no part is the spec's decision D10 (log entry 6). -/
def Obligations.DecodeReadsEveryFieldOfEveryWord : Prop :=
  (∀ (u : BitVec 6) (d s2 s1 : BitVec 2),
    decode (1#4 ++ u ++ d ++ s2 ++ s1) = .ok (.and d.toFin s1.toFin s2.toFin) ∧
    decode (3#4 ++ u ++ d ++ s2 ++ s1) = .ok (.add d.toFin s1.toFin s2.toFin) ∧
    decode (4#4 ++ u ++ d ++ s2 ++ s1) = .ok (.sub d.toFin s1.toFin s2.toFin)) ∧
  (∀ (u r : BitVec 2) (v : BitVec 8),
    decode (2#4 ++ u ++ r ++ v) = .ok (.mov r.toFin v) ∧
    decode (5#4 ++ u ++ r ++ v) = .ok (.ldr r.toFin v) ∧
    decode (6#4 ++ u ++ r ++ v) = .ok (.str r.toFin v)) ∧
  (∀ (t : BitVec 4) (low : BitVec 12), t = 0#4 ∨ 7 ≤ t.toNat → decode (t ++ low) = .error .unknownOpcode)

/-- R60: `encode` puts the tag and each operand into its bit positions, unused bits 0, for toolchain operands of any
size: a register index is cut to 2 bits, an immediate or address to 8. -/
def Obligations.EncodePacksAndTruncatesOperands : Prop :=
  (∀ d s1 s2 : Nat,
    AsmInstr.encode (.and d s1 s2) = 1#4 ++ 0#6 ++ BitVec.ofNat 2 d ++ BitVec.ofNat 2 s2 ++ BitVec.ofNat 2 s1 ∧
    AsmInstr.encode (.add d s1 s2) = 3#4 ++ 0#6 ++ BitVec.ofNat 2 d ++ BitVec.ofNat 2 s2 ++ BitVec.ofNat 2 s1 ∧
    AsmInstr.encode (.sub d s1 s2) = 4#4 ++ 0#6 ++ BitVec.ofNat 2 d ++ BitVec.ofNat 2 s2 ++ BitVec.ofNat 2 s1) ∧
  (∀ r v : Nat,
    AsmInstr.encode (.mov r v) = 2#4 ++ 0#2 ++ BitVec.ofNat 2 r ++ BitVec.ofNat 8 v ∧
    AsmInstr.encode (.ldr r v) = 5#4 ++ 0#2 ++ BitVec.ofNat 2 r ++ BitVec.ofNat 8 v ∧
    AsmInstr.encode (.str r v) = 6#4 ++ 0#2 ++ BitVec.ofNat 2 r ++ BitVec.ofNat 8 v) ∧
  (∀ i : Instr, encode i = i.toAsm.encode)

/-- R61 (a), the source's round-trip law, for every instruction with every operand. -/
def Obligations.DecodeInvertsEncode : Prop := ∀ i : Instr, decode (encode i) = .ok i

/-- R60, R61 (a): a toolchain instruction, whatever its operands, is read back with each cut to its field. -/
def Obligations.DecodeOfToolchainWordIsNarrowed : Prop := ∀ a : AsmInstr, decode a.encode = .ok a.narrow

/-- R61 (b), the spec's inference: encoding what a word decodes to clears its unused bits and keeps all others. -/
def Obligations.EncodeOfDecodeClearsUnusedBits : Prop :=
  ∀ (w : Word) (i : Instr), decode w = .ok i →
    encode i = w &&& (if tag w = 1 ∨ tag w = 3 ∨ tag w = 4 then 0xF03F#16 else 0xF3FF#16)

/-- R61 (c), the spec's inference: the words `encode` gives are exactly those with a valid tag and unused bits 0, and
no two instructions share one. -/
def Obligations.EncodeImageIsValidTagsWithZeroUnused : Prop :=
  (∀ i j : Instr, encode i = encode j → i = j) ∧
  ∀ w : Word, (∃ i, encode i = w) ↔
    ((tag w = 1 ∨ tag w = 3 ∨ tag w = 4) ∧ w &&& 0x0FC0#16 = 0#16) ∨
      ((tag w = 2 ∨ tag w = 5 ∨ tag w = 6) ∧ w &&& 0x0C00#16 = 0#16)

/-- Words of tables V-E1 and V-E2 of 95_test_vectors.md, one for each instruction and three illegal ones. -/
def Obligations.WrittenOutWordsDecode : Prop :=
  decode 0x101E#16 = .ok (.and 1 2 3) ∧ decode 0x2280#16 = .ok (.mov 2 128) ∧ decode 0x3FC6#16 = .ok (.add 0 2 1) ∧
  decode 0x402D#16 = .ok (.sub 2 1 3) ∧ decode 0x5F10#16 = .ok (.ldr 3 16) ∧ decode 0x630A#16 = .ok (.str 3 10) ∧
  decode 0x0000#16 = .error .unknownOpcode ∧ decode 0x7000#16 = .error .unknownOpcode ∧
  decode 0xFFFF#16 = .error .unknownOpcode

/-- R62: instruction `k` of a program stands at byte offsets `2*k` (its low byte) and `2*k + 1` (its high byte), and a
memory the program was loaded into holds exactly these bytes at the addresses `0` to `2*len - 1`. -/
def Obligations.ProgramBytesAreLittleEndianWords : Prop :=
  ∀ program : List Instr,
    (programBytes program).length = 2 * program.length ∧
    (∀ (k : Nat) (i : Instr), program[k]? = some i →
      (programBytes program)[2 * k]? = some ((encode i).extractLsb' 0 8) ∧
      (programBytes program)[2 * k + 1]? = some ((encode i).extractLsb' 8 8)) ∧
    ∀ m m' : Memory, m.loadProgram program = .ok m' → ∀ a, a < 2 * program.length →
      (programBytes program)[a]? = some (m'.get a)

/-! The instructions: spec 41_alu.md, 42_mov.md, 43_load_store.md. Each says that the instruction answers a next state, what it
writes, and that everything else is as before. -/

/-- R80 -/
def Obligations.AndWritesBitwiseAnd : Prop :=
  ∀ (d s1 s2 : Reg) (s : State), ∃ t, exec (.and d s1 s2) s = .next t ∧
    (∀ k, k < 8 → (t.readReg d).getLsbD k = ((s.readReg s1).getLsbD k && (s.readReg s2).getLsbD k)) ∧
    SameExceptReg d s t

/-- R81 -/
def Obligations.AddWritesSumModulo256 : Prop :=
  ∀ (d s1 s2 : Reg) (s : State), ∃ t, exec (.add d s1 s2) s = .next t ∧
    (t.readReg d).toNat = ((s.readReg s1).toNat + (s.readReg s2).toNat) % 256 ∧
    SameExceptReg d s t

/-- R82: `src1` minus `src2`, with the non-negative remainder. -/
def Obligations.SubWritesDifferenceModulo256 : Prop :=
  ∀ (d s1 s2 : Reg) (s : State), ∃ t, exec (.sub d s1 s2) s = .next t ∧
    ((t.readReg d).toNat : Int) = ((s.readReg s1).toNat - (s.readReg s2).toNat : Int) % 256 ∧
    SameExceptReg d s t

/-- R90 -/
def Obligations.MovWritesImmediate : Prop :=
  ∀ (d : Reg) (v : Byte) (s : State), ∃ t, exec (.mov d v) s = .next t ∧ t.readReg d = v ∧ SameExceptReg d s t

/-- R95: the load, and the AddressError (code 3) where the address does not exist. -/
def Obligations.LdrLoadsByteOrRaises : Prop :=
  ∀ (d : Reg) (a : Byte) (s : State),
    (effectiveAddress a < s.mem.capacity.val → ∃ t, exec (.ldr d a) s = .next t ∧
      t.readReg d = s.mem.get (effectiveAddress a) ∧ SameExceptReg d s t) ∧
    (s.mem.capacity.val ≤ effectiveAddress a → ∃ t, exec (.ldr d a) s = .next t ∧
      faultCode t.fault = 3 ∧ SameExceptFault s t)

/-- R96: the store, and the AddressError (code 3) where the address does not exist. -/
def Obligations.StrStoresByteOrRaises : Prop :=
  ∀ (r : Reg) (a : Byte) (s : State),
    (effectiveAddress a < s.mem.capacity.val → ∃ t, exec (.str r a) s = .next t ∧
      t.mem.get (effectiveAddress a) = s.readReg r ∧ SameExceptByte (effectiveAddress a) s t) ∧
    (s.mem.capacity.val ≤ effectiveAddress a → ∃ t, exec (.str r a) s = .next t ∧
      faultCode t.fault = 3 ∧ SameExceptFault s t)

/-- R80, R81, R82 (corner cases): exchanging the sources leaves And and Add as they are and negates Sub modulo 256. -/
def Obligations.ExchangingSources : Prop :=
  ∀ (d s1 s2 : Reg) (s : State),
    exec (.and d s1 s2) s = exec (.and d s2 s1) s ∧ exec (.add d s1 s2) s = exec (.add d s2 s1) s ∧
    ∃ t u, exec (.sub d s1 s2) s = .next t ∧ exec (.sub d s2 s1) s = .next u ∧
      (u.readReg d).toNat = (256 - (t.readReg d).toNat) % 256

/-- R83 (b), the spec's inference: adding back what was subtracted restores the minuend. -/
def Obligations.AddUndoesSub : Prop :=
  ∀ (d a b : Reg) (s : State), b ≠ d → ∃ t u, exec (.sub d a b) s = .next t ∧ exec (.add d d b) t = .next u ∧
    u.readReg d = s.readReg a

/-- R40: "`Str` followed by `Ldr` at the same address round-trips the stored value exactly". -/
def Obligations.StoreThenLoadRoundTrips : Prop :=
  ∀ (r d : Reg) (a : Byte) (s : State), effectiveAddress a < s.mem.capacity.val →
    ∃ t u, exec (.str r a) s = .next t ∧ exec (.ldr d a) t = .next u ∧ u.readReg d = s.readReg r ∧
      u.mem.get (effectiveAddress a) = s.readReg r

/-- R112, R140, the spec's inference: with `CAP = 256` the execute phase never sets the latch. -/
def Obligations.NoExecuteFaultAtFullCapacity : Prop :=
  ∀ (i : Instr) (s : State), s.mem.capacity.val = 256 → ∃ t, exec i s = .next t ∧ t.fault = s.fault

/-! Memory: spec 20_memory.md. -/

/-- R32: both reads, with the bound test on every byte address before any byte is used. -/
def Obligations.MemReadTestsEveryAddress : Prop :=
  ∀ (m : Memory) (a : Nat),
    (m.capacity.val ≤ a → memRead1 m a = .error ⟨a⟩ ∧ memRead2 m a = .error ⟨a⟩) ∧
    (a < m.capacity.val → memRead1 m a = .ok (m.get a)) ∧
    (a < m.capacity.val → m.capacity.val ≤ a + 1 → memRead2 m a = .error ⟨a + 1⟩) ∧
    (a + 1 < m.capacity.val → ∃ w, memRead2 m a = .ok w ∧ w.toNat = (m.get a).toNat + 256 * (m.get (a + 1)).toNat)

/-- R33: a write below the capacity changes its own cell and no other; any other write raises, and nothing is written. -/
def Obligations.MemWriteChangesOneCell : Prop :=
  ∀ (m : Memory) (a : Nat) (v : Byte),
    (m.capacity.val ≤ a → memWrite1 m a v = .error ⟨a⟩) ∧
    (a < m.capacity.val → ∃ m', memWrite1 m a v = .ok m' ∧ m'.capacity = m.capacity ∧ m'.get a = v ∧
      ∀ b, b ≠ a → m'.get b = m.get b)

/-- R31: a built memory reads 0 everywhere; a step never resizes it, and changes a cell only by a `Str` to it. -/
def Obligations.OnlyStrChangesMemory : Prop :=
  (∀ (c : Fin 257) (a : Nat), (Memory.build c).capacity = c ∧ (Memory.build c).get a = 0) ∧
  ∀ s : State, ∃ t, step s = .next t ∧ t.mem.capacity = s.mem.capacity ∧
    ∀ a, t.mem.get a ≠ s.mem.get a → FetchSucceeds s ∧ ∃ r x, decode (wordAtPc s) = .ok (.str r x) ∧
      effectiveAddress x = a ∧ a < s.mem.capacity.val

/-- R42, the spec's inference: the step after a `Str` fetches the stored byte when the store went to either byte of its
word, and the `Str` itself runs as it was fetched. -/
def Obligations.NextFetchSeesStore : Prop :=
  ∀ (s : State) (r : Reg) (a : Byte), FetchSucceeds s → decode (wordAtPc s) = .ok (.str r a) →
    effectiveAddress a < s.mem.capacity.val → ∃ t, step s = .next t ∧ t.ir = wordAtPc s ∧ t.fault = none ∧
      (FetchSucceeds t → ∃ u, step t = .next u ∧
        (t.pc.toNat = effectiveAddress a → u.ir.extractLsb' 0 8 = s.readReg r) ∧
        (t.pc.toNat + 1 = effectiveAddress a → u.ir.extractLsb' 8 8 = s.readReg r))

/-- R101, R40, R36: the transactions of a step. Below `CAP` every one of them; none unless the fetch succeeds, else the two
fetch reads and at most one data transaction: exactly the read of a `Ldr` and the write of a `Str` whose address exists, and
none for any other word. Serving them on the memory gives the memory after the step. That the low byte comes first is the
spec's decision D13 (log entry 17). -/
def Obligations.StepIsItsTransactions : Prop :=
  ∀ s : State, ∃ t, step s = .next t ∧ t.mem = (transactions s).foldl Memory.serve s.mem ∧
    (∀ x ∈ transactions s, x.addr < s.mem.capacity.val) ∧
    (¬ FetchSucceeds s → transactions s = []) ∧
    (FetchSucceeds s → ∃ data, transactions s =
        .fetchLow s.pc.toNat (s.mem.get s.pc.toNat) :: .fetchHigh (s.pc.toNat + 1) (s.mem.get (s.pc.toNat + 1)) :: data ∧
      data.length ≤ 1 ∧
      (∀ d a, decode (wordAtPc s) = .ok (.ldr d a) → effectiveAddress a < s.mem.capacity.val →
        data = [.dataRead (effectiveAddress a) (s.mem.get (effectiveAddress a))] ∧
        t.readReg d = s.mem.get (effectiveAddress a)) ∧
      (∀ r a, decode (wordAtPc s) = .ok (.str r a) → effectiveAddress a < s.mem.capacity.val →
        data = [.dataWrite (effectiveAddress a) (s.readReg r)]) ∧
      ((∀ i a, decode (wordAtPc s) = .ok i → i.address? = some a → s.mem.capacity.val ≤ effectiveAddress a) → data = []))

/-! The step: spec 40_cycle.md, 10_state.md, 60_exceptions.md. -/

/-- R70 to R73: where the two bytes at `pc` exist and their word decodes to `i`, the step of a core that is not halted is
`exec i` on the state with `ir` holding that word and `pc` advanced by 2. -/
def Obligations.StepRunsDecodedInstruction : Prop :=
  ∀ (s : State) (i : Instr) (w : Word), s.fault = none → s.pc.toNat + 1 < s.mem.capacity.val →
    w.toNat = (s.mem.get s.pc.toNat).toNat + 256 * (s.mem.get (s.pc.toNat + 1)).toNat → decode w = .ok i →
    step s = exec i { s with ir := w, pc := s.pc + 2 }

/-- R114, the spec's table of the state after each raise (it rests on the spec's decisions D7, D8, D18: log entries 4, 10).
A step that raises leaves exactly this state; no other step of a core that is not halted sets the latch. -/
def Obligations.StateAfterEachRaise : Prop :=
  ∀ s : State, s.fault = none →
    (s.mem.capacity.val ≤ s.pc.toNat + 1 → step s = .next { s with fault := some .addressErrorFetch }) ∧
    (FetchSucceeds s → tag (wordAtPc s) = 0 ∨ 7 ≤ tag (wordAtPc s) →
      step s = .next { s with pc := s.pc + 2, ir := wordAtPc s, fault := some .decodeError }) ∧
    (FetchSucceeds s → tag (wordAtPc s) = 5 ∨ tag (wordAtPc s) = 6 →
      s.mem.capacity.val ≤ (wordAtPc s).toNat % 256 →
      step s = .next { s with pc := s.pc + 2, ir := wordAtPc s, fault := some .addressErrorExecute }) ∧
    (FetchSucceeds s → 1 ≤ tag (wordAtPc s) → tag (wordAtPc s) ≤ 6 →
      (tag (wordAtPc s) = 5 ∨ tag (wordAtPc s) = 6 → (wordAtPc s).toNat % 256 < s.mem.capacity.val) →
      ∃ t, step s = .next t ∧ t.fault = none ∧ t.pc = s.pc + 2 ∧ t.ir = wordAtPc s)

/-- R70, R116 (the spec's decision D7, log entry 5): a halted core changes nothing, and reset clears the latch. -/
def Obligations.HaltedUntilReset : Prop :=
  ∀ s : State, s.fault ≠ none → step s = .next s ∧ (∀ n, run n s = .next s) ∧ s.applyReset.fault = none

/-- R12: `ir` takes the word just fetched, whatever decode or execute then do, and keeps it until the next successful
fetch; what it held before a fetch plays no part; the host reads it as it is. -/
def Obligations.InstructionRegisterHoldsLastFetch : Prop :=
  ∀ s : State, ∃ t, step s = .next t ∧
    (FetchSucceeds s → t.ir.toNat = (s.mem.get s.pc.toNat).toNat + 256 * (s.mem.get (s.pc.toNat + 1)).toNat ∧
      ∀ w : Word, step { s with ir := w } = .next t) ∧
    (¬ FetchSucceeds s → t.ir = s.ir) ∧ (observe t).ir = t.ir

/-- R71, R74: `pc` advances by exactly 2, as an integer, in every step whose fetch succeeds and is unchanged in every
other; the failed fetch rests on the spec's decision D8 (log entry 10). -/
def Obligations.ProgramCounterAdvancesByTwo : Prop :=
  ∀ s : State, ∃ t, step s = .next t ∧ (FetchSucceeds s → t.pc.toNat = s.pc.toNat + 2) ∧
    (¬ FetchSucceeds s → t.pc = s.pc)

/-- R74, R77: there is no control transfer: where `pc`, `ir` and the latch go IN ONE STEP does not depend on the registers.
Over several steps it can: a `Str` of a register into code changes a later `ir`, and with it possibly the latch (R42). -/
def Obligations.ControlInOneStepIgnoresRegisters : Prop :=
  ∀ (s : State) (f : RegFile), ∃ t u, step s = .next t ∧ step { s with regs := f } = .next u ∧
    t.pc = u.pc ∧ t.ir = u.ir ∧ t.fault = u.fault

/-- R18, the spec's access table: a step changes a register only where the fetched word decodes to an instruction
with that destination. -/
def Obligations.OnlyDestinationRegisterChanges : Prop :=
  ∀ (s : State) (r : Reg), ∃ t, step s = .next t ∧
    (t.readReg r ≠ s.readReg r → FetchSucceeds s ∧ ∃ i, decode (wordAtPc s) = .ok i ∧ i.destination? = some r)

/-- R111, R112 (the spec's decisions D7, D21): the host recovers the offending address and instruction from the state a
raise leaves. -/
def Obligations.HostRecoversOffendingAddress : Prop :=
  ∀ s : State, s.fault = none → ∃ t, step s = .next t ∧
    (t.fault = some .decodeError → t.offendingInstruction = some s.pc.toNat ∧ t.ir = wordAtPc s) ∧
    (t.fault = some .addressErrorFetch → ∃ a, t.offendingAddress = some a ∧ memRead2 s.mem s.pc.toNat = .error ⟨a⟩) ∧
    (t.fault = some .addressErrorExecute → t.offendingInstruction = some s.pc.toNat ∧
      ∃ i a, decode (wordAtPc s) = .ok i ∧ i.address? = some a ∧ t.offendingAddress = some (effectiveAddress a) ∧
        memRead1 s.mem (effectiveAddress a) = .error ⟨effectiveAddress a⟩)

/-- R14, R110 (the numbers are the spec's decision D18, log entry 4): the codes of the latch and the kinds of error. -/
def Obligations.ErrorCodesAndKinds : Prop :=
  faultCode none = 0 ∧ faultCode (some .decodeError) = 1 ∧ faultCode (some .addressErrorFetch) = 2 ∧
  faultCode (some .addressErrorExecute) = 3 ∧ Cause.kind .decodeError = .decodeError ∧
  Cause.kind .addressErrorFetch = .addressError ∧ Cause.kind .addressErrorExecute = .addressError ∧
  ∀ s : State, (reportedError s = none ↔ s.fault = none) ∧ (observe s).fault = faultCode s.fault

/-- R63, R85, the spec's inference: the step that the decoder's control outputs drive is the step of the rules. -/
def Obligations.BlockStepRefinesStep : Prop := ∀ s : State, step s = .next (blockStep s)

/-- R63, the spec's inference: every output of the decoder. First the outputs that are bits of any word; then the rows of
the table per instruction, with the value of each output the table uses for it; then the illegal words. The outputs the
table leaves unused are the subject of `UnusedControlOutputsAreNone`. -/
def Obligations.ControlOutputsFollowTable : Prop :=
  (∀ w : Word,
    (decoderOutputs w).tag = w.extractLsb' 12 4 ∧
    ((decoderOutputs w).illegal = true ↔ tag w = 0 ∨ 7 ≤ tag w) ∧
    ((decoderOutputs w).fmtR3 = true ↔ tag w = 1 ∨ tag w = 3 ∨ tag w = 4) ∧
    ((decoderOutputs w).fmtRi = true ↔ tag w = 2 ∨ tag w = 5 ∨ tag w = 6) ∧
    (decoderOutputs w).rs1 = (w.extractLsb' 0 2).toFin ∧ (decoderOutputs w).rs2 = (w.extractLsb' 2 2).toFin ∧
    (decoderOutputs w).rdR3 = (w.extractLsb' 4 2).toFin ∧ (decoderOutputs w).regRi = (w.extractLsb' 8 2).toFin ∧
    (decoderOutputs w).imm = w.extractLsb' 0 8 ∧
    ((decoderOutputs w).regWe = true ↔ 1 ≤ tag w ∧ tag w ≤ 5) ∧
    ((decoderOutputs w).memRe = true ↔ tag w = 5) ∧ ((decoderOutputs w).memWe = true ↔ tag w = 6)) ∧
  (∀ (w : Word) (d s1 s2 : Reg) (op : AluOp),
    (decode w = .ok (.and d s1 s2) ∧ op = .and) ∨ (decode w = .ok (.add d s1 s2) ∧ op = .add) ∨
      (decode w = .ok (.sub d s1 s2) ∧ op = .sub) →
    (decoderOutputs w).regWe = true ∧ (decoderOutputs w).regWaddr = some d ∧ (decoderOutputs w).regWsel = some .alu ∧
    (decoderOutputs w).aluOp = some op ∧ (decoderOutputs w).rs1 = s1 ∧ (decoderOutputs w).rs2 = s2 ∧
    (decoderOutputs w).memRe = false ∧ (decoderOutputs w).memWe = false) ∧
  (∀ (w : Word) (d : Reg) (v : Byte), decode w = .ok (.mov d v) →
    (decoderOutputs w).regWe = true ∧ (decoderOutputs w).regWaddr = some d ∧ (decoderOutputs w).regWsel = some .imm ∧
    (decoderOutputs w).imm = v ∧ (decoderOutputs w).memRe = false ∧ (decoderOutputs w).memWe = false) ∧
  (∀ (w : Word) (d : Reg) (a : Byte), decode w = .ok (.ldr d a) →
    (decoderOutputs w).regWe = true ∧ (decoderOutputs w).regWaddr = some d ∧ (decoderOutputs w).regWsel = some .memory ∧
    (decoderOutputs w).memRe = true ∧ (decoderOutputs w).memAddr = some a ∧ (decoderOutputs w).memWe = false) ∧
  (∀ (w : Word) (r : Reg) (a : Byte), decode w = .ok (.str r a) →
    (decoderOutputs w).regWe = false ∧ (decoderOutputs w).memRe = false ∧ (decoderOutputs w).memWe = true ∧
    (decoderOutputs w).memAddr = some a ∧ ∀ s : State, (decoderOutputs w).memWdata s = s.readReg r) ∧
  (∀ (w : Word) (e : DecodeError), decode w = .error e →
    (decoderOutputs w).illegal = true ∧ (decoderOutputs w).regWe = false ∧ (decoderOutputs w).memRe = false ∧
    (decoderOutputs w).memWe = false)

/-- THE MODEL'S CHOICE, log entry 14, and no rule of the spec: an output that the table of R63 leaves unused for a word is
`none` there, and is some value exactly where the table uses it. -/
def Obligations.UnusedControlOutputsAreNone : Prop :=
  ∀ w : Word,
    ((decoderOutputs w).aluOp = none ↔ (decoderOutputs w).fmtR3 = false) ∧
    ((decoderOutputs w).regWaddr = none ↔ (decoderOutputs w).regWe = false) ∧
    ((decoderOutputs w).regWsel = none ↔ (decoderOutputs w).regWe = false) ∧
    ((decoderOutputs w).memAddr = none ↔ (decoderOutputs w).memRe = false ∧ (decoderOutputs w).memWe = false)

/-! Invariants and runs: spec 40_cycle.md R75 to R77. -/

/-- R75, R111, R112: every step from every state that meets the invariant gives one that meets it. -/
def Obligations.StepKeepsInvariant : Prop := ∀ s : State, Inv s → ∃ t, step s = .next t ∧ Inv t

/-- The invariant holds right after reset. -/
def Obligations.ResetMeetsInvariant : Prop := Inv State.reset

/-- R105, R130: loading a program into a canonical memory and resetting the core gives the invariant, from any state. -/
def Obligations.LoadAndResetMeetInvariant : Prop :=
  ∀ (m m' : Memory) (program : List Instr) (s : State), m.wf = true → m.loadProgram program = .ok m' →
    Inv (State.resetWith m') ∧ (Inv s → Inv s.applyReset)

/-- R76: `run(n)`, which stops at the first error, is `n` calls of `step` in every case. -/
def Obligations.RunIsRepeatedStep : Prop :=
  ∀ (n : Nat) (s : State), run n s = Host.Core.run Sys2Proof.core n s ∧ ∃ t, run n s = .next t

/-- R75, R76: a run that ends without an error has advanced `pc` by exactly `2 * n`, from any start. -/
def Obligations.CleanRunAdvancesTwicePerStep : Prop :=
  ∀ (n : Nat) (s t : State), run n s = .next t → t.fault = none → t.pc.toNat = s.pc.toNat + 2 * n

/-- R75, R78, the spec's inference: from any state whatever, the core has stopped itself by a fatal error after at most
`floor(CAP / 2) + 1` steps. -/
def Obligations.EveryRunHaltsWithinCapacity : Prop :=
  ∀ s : State, ∃ t, run (s.mem.capacity.val / 2 + 1) s = .next t ∧ t.fault ≠ none

/-! Reset and the host: spec 44_host_interface.md, 70_reset_and_hazards.md. -/

/-- R19, R130: what reset leaves (the values are the spec's decisions D3, D4, D5, D7: log entry 2), and that it does not
touch the memory; the machine right after reset has the memory as it is built (log entry 3). -/
def Obligations.ResetValues : Prop :=
  (∀ s : State, s.applyReset.pc = 0 ∧ s.applyReset.ir = 0 ∧ s.applyReset.fault = none ∧
    (∀ r, s.applyReset.readReg r = 0) ∧ s.applyReset.mem = s.mem) ∧
  State.reset.mem = Memory.build 256 ∧ State.reset.applyReset = State.reset

/-- R105, R120: a program that fits is placed from offset 0, every other cell as before; one that does not fit is a
LoadError (that nothing is written then is the spec's decision D15, log entry 12). -/
def Obligations.LoadProgramPlacesWords : Prop :=
  ∀ (m : Memory) (program : List Instr),
    (m.capacity.val < 2 * program.length → m.loadProgram program = .error .tooLong) ∧
    (2 * program.length ≤ m.capacity.val → ∃ m', m.loadProgram program = .ok m' ∧ m'.capacity = m.capacity ∧
      (∀ (k : Nat) (i : Instr), program[k]? = some i →
        m'.get (2 * k) = (encode i).extractLsb' 0 8 ∧ m'.get (2 * k + 1) = (encode i).extractLsb' 8 8) ∧
      ∀ a, 2 * program.length ≤ a → m'.get a = m.get a)

/-- R62, R74, R105: the core, at the place of instruction `k` of a loaded program, runs exactly that instruction. -/
def Obligations.LoadedInstructionIsTheOneExecuted : Prop :=
  ∀ (m m' : Memory) (program : List Instr) (k : Nat) (i : Instr) (s : State),
    m.loadProgram program = .ok m' → program[k]? = some i → s.mem = m' → s.fault = none → s.pc.toNat = 2 * k →
    step s = exec i { s with ir := encode i, pc := s.pc + 2 }

/-- R107: build, load, reset, step is the order; a core is not stepped before reset, and nothing runs after a LoadError.
That `load_program` after the first reset does not take place, even while the core is idle, is THE MODEL'S CHOICE (log
entry 11): the spec forbids it only while the core runs (R106). -/
def Obligations.HostLifecycleOrder : Prop :=
  ∀ (c : Fin 257) (program : List Instr),
    (∀ m, (Memory.build c).loadProgram program = .ok m →
      Session.script [.loadProgram program, .reset] (.building (Memory.build c)) = .ok (.attached (State.resetWith m))) ∧
    (c.val < 2 * program.length → ∀ rest,
      Session.script (.loadProgram program :: rest) (.building (Memory.build c)) = .error (.load .tooLong)) ∧
    (∀ m n, Session.apply .step (.building m) = .error .noCore ∧ Session.apply (.run n) (.building m) = .error .noCore) ∧
    (∀ s, Session.apply (.loadProgram program) (.attached s) = .error .memoryOwned) ∧
    (∀ (s : State) (n : Nat), ∃ t, run n s = .next t ∧ Session.apply (.run n) (.attached s) = .ok (.attached t))
end

