-- ==== Sys2Proof/Laws/Encode.lean ====
section
/-! SUPPORT. The fields of a word and of an encoded word as arithmetic on its value. -/

namespace Sys2Proof

theorem tag_eq (w : Word) : tag w = w.toNat / 4096 := by
  have := w.isLt
  unfold tag bits
  rw [Nat.shiftRight_eq_div_pow]
  omega

theorem regField_val (w : Word) (lo : Nat) : (regField w lo).val = w.toNat / 2 ^ lo % 4 := by
  unfold regField bits
  rw [Nat.shiftRight_eq_div_pow, show lo + 1 - lo + 1 = 2 by omega]
  simp [Fin.ofNat]

theorem src1Field_val (w : Word) : (src1Field w).val = w.toNat % 4 := by
  simpa [src1Field] using regField_val w 0

theorem src2Field_val (w : Word) : (src2Field w).val = w.toNat / 4 % 4 := regField_val w 2

theorem dstField_val (w : Word) : (dstField w).val = w.toNat / 16 % 4 := regField_val w 4

theorem regRiField_val (w : Word) : (regRiField w).val = w.toNat / 256 % 4 := regField_val w 8

theorem immField_toNat (w : Word) : (immField w).toNat = w.toNat % 256 := by
  unfold immField bits
  simp

theorem wordOfBytes_toNat (lo hi : Byte) : (wordOfBytes lo hi).toNat = lo.toNat + 256 * hi.toNat := by
  have := lo.isLt
  have := hi.isLt
  unfold wordOfBytes
  rw [BitVec.toNat_ofNat]
  omega

theorem lowByte_toNat (w : Word) : (lowByte w).toNat = w.toNat % 256 := by
  simp [lowByte]

theorem highByte_toNat (w : Word) : (highByte w).toNat = w.toNat / 256 := by
  have := w.isLt
  unfold highByte
  rw [BitVec.toNat_ofNat]
  omega

/-- A word is its two bytes. -/
theorem wordOfBytes_low_high (w : Word) : wordOfBytes (lowByte w) (highByte w) = w := by
  apply BitVec.eq_of_toNat_eq
  rw [wordOfBytes_toNat, lowByte_toNat, highByte_toNat]
  omega

theorem packR3_toNat (t d s1 s2 : Nat) (ht : t < 16) :
    (packR3 t d s1 s2).toNat = t * 4096 + (d % 4) * 16 + (s2 % 4) * 4 + s1 % 4 := by
  unfold packR3
  rw [BitVec.toNat_ofNat]
  omega

theorem packRI_toNat (t r v : Nat) (ht : t < 16) :
    (packRI t r v).toNat = t * 4096 + (r % 4) * 256 + v % 256 := by
  unfold packRI
  rw [BitVec.toNat_ofNat]
  omega

/-- The tag of an encoded instruction (R54). -/
def Instr.tagNumber : Instr → Nat
  | .and _ _ _ => 1
  | .mov _ _ => 2
  | .add _ _ _ => 3
  | .sub _ _ _ => 4
  | .ldr _ _ => 5
  | .str _ _ => 6

end Sys2Proof
end

