-- ==== Sys2Proof/Laws/State.lean ====
section
/-! SUPPORT. One lemma per field per update of the state, and reading a register back after a write. -/

namespace Sys2Proof.Machine

@[simp] theorem State.writeReg_regs (s : State) (i : Reg) (v : Byte) : (s.writeReg i v).regs = s.regs.set i v := rfl
@[simp] theorem State.writeReg_pc (s : State) (i : Reg) (v : Byte) : (s.writeReg i v).pc = s.pc := rfl
@[simp] theorem State.writeReg_ir (s : State) (i : Reg) (v : Byte) : (s.writeReg i v).ir = s.ir := rfl
@[simp] theorem State.writeReg_fault (s : State) (i : Reg) (v : Byte) : (s.writeReg i v).fault = s.fault := rfl
@[simp] theorem State.writeReg_mem (s : State) (i : Reg) (v : Byte) : (s.writeReg i v).mem = s.mem := rfl

@[simp] theorem State.setMem_regs (s : State) (m : Memory) : (s.setMem m).regs = s.regs := rfl
@[simp] theorem State.setMem_pc (s : State) (m : Memory) : (s.setMem m).pc = s.pc := rfl
@[simp] theorem State.setMem_ir (s : State) (m : Memory) : (s.setMem m).ir = s.ir := rfl
@[simp] theorem State.setMem_fault (s : State) (m : Memory) : (s.setMem m).fault = s.fault := rfl
@[simp] theorem State.setMem_mem (s : State) (m : Memory) : (s.setMem m).mem = m := rfl

@[simp] theorem State.afterFetch_regs (s : State) (w : Word) : (s.afterFetch w).regs = s.regs := rfl
@[simp] theorem State.afterFetch_pc (s : State) (w : Word) : (s.afterFetch w).pc = s.pc + 2 := rfl
@[simp] theorem State.afterFetch_ir (s : State) (w : Word) : (s.afterFetch w).ir = w := rfl
@[simp] theorem State.afterFetch_fault (s : State) (w : Word) : (s.afterFetch w).fault = s.fault := rfl
@[simp] theorem State.afterFetch_mem (s : State) (w : Word) : (s.afterFetch w).mem = s.mem := rfl

@[simp] theorem raise_regs (c : Cause) (s : State) : (raise c s).regs = s.regs := rfl
@[simp] theorem raise_pc (c : Cause) (s : State) : (raise c s).pc = s.pc := rfl
@[simp] theorem raise_ir (c : Cause) (s : State) : (raise c s).ir = s.ir := rfl
@[simp] theorem raise_fault (c : Cause) (s : State) : (raise c s).fault = some c := rfl
@[simp] theorem raise_mem (c : Cause) (s : State) : (raise c s).mem = s.mem := rfl

@[simp] theorem Memory.set_capacity (m : Memory) (a : Nat) (v : Byte) : (m.set a v).capacity = m.capacity := rfl
@[simp] theorem Memory.build_capacity (c : Fin 257) : (Memory.build c).capacity = c := rfl
@[simp] theorem Memory.build_get (c : Fin 257) (a : Nat) : (Memory.build c).get a = 0 := rfl

/-- A register written reads back. -/
@[simp] theorem RegFile.get_set_same (f : RegFile) (i : Reg) (v : Byte) : (f.set i v).get i = v := by
  fin_cases i <;> rfl

/-- A write leaves the other registers as they are (R10: no aliasing). -/
theorem RegFile.get_set_other (f : RegFile) {i j : Reg} (v : Byte) (h : j ≠ i) : (f.set i v).get j = f.get j := by
  fin_cases i <;> fin_cases j <;> first | rfl | exact absurd rfl h

@[simp] theorem State.readReg_writeReg_same (s : State) (i : Reg) (v : Byte) : (s.writeReg i v).readReg i = v :=
  RegFile.get_set_same s.regs i v

theorem State.readReg_writeReg_other (s : State) {i j : Reg} (v : Byte) (h : j ≠ i) :
    (s.writeReg i v).readReg j = s.readReg j :=
  RegFile.get_set_other s.regs v h

@[simp] theorem State.readReg_setMem (s : State) (m : Memory) (i : Reg) : (s.setMem m).readReg i = s.readReg i := rfl
@[simp] theorem State.readReg_afterFetch (s : State) (w : Word) (i : Reg) : (s.afterFetch w).readReg i = s.readReg i := rfl
@[simp] theorem readReg_raise (c : Cause) (s : State) (i : Reg) : (raise c s).readReg i = s.readReg i := rfl

/-- Two register files that read alike are one register file. -/
theorem RegFile.ext_get (f g : RegFile) (h : ∀ i, f.get i = g.get i) : f = g := by
  obtain ⟨f0, f1, f2, f3⟩ := f
  obtain ⟨g0, g1, g2, g3⟩ := g
  have h0 := h 0
  have h1 := h 1
  have h2 := h 2
  have h3 := h 3
  simp only [RegFile.get] at h0 h1 h2 h3
  subst h0 h1 h2 h3
  rfl

end Sys2Proof.Machine
end

