-- ==== Sys2Proof/Laws/Memory.lean ====
section
/-! SUPPORT. The memory laws: reading after writing, what the access primitives answer, and the canonical form, which
every operation that writes memory keeps. -/

namespace Sys2Proof.Machine

theorem cellAt_insertCell (l : List Host.Cell) (c : Host.Cell) (a : Nat) (hl : ∀ b ∈ l, b.1 ≠ c.1) :
    cellAt (insertCell l c) a = if c.1 = a then c.2 else cellAt l a := by
  induction l with
  | nil => simp [insertCell, cellAt]
  | cons b rest ih =>
    have hb : b.1 ≠ c.1 := hl b (by simp)
    have ih := ih (fun x hx => hl x (by simp [hx]))
    by_cases hlt : c.1 < b.1
    · simp [insertCell, hlt, cellAt]
    · simp only [insertCell, hlt, if_false, cellAt, ih]
      by_cases hba : b.1 = a
      · have hca : c.1 ≠ a := fun h => hb (by omega)
        simp [hba, hca]
      · simp [hba]

theorem cellAt_filter (l : List Host.Cell) (a b : Nat) :
    cellAt (l.filter (fun c => decide (c.1 ≠ a))) b = if a = b then 0 else cellAt l b := by
  induction l with
  | nil => simp [cellAt]
  | cons c rest ih =>
    by_cases hca : c.1 = a
    · by_cases hab : a = b
      · simp_all
      · have hcb : c.1 ≠ b := by omega
        simp_all [cellAt]
    · by_cases hcb : c.1 = b
      · have hab : a ≠ b := by omega
        simp_all [cellAt]
      · simp_all [cellAt]

theorem filter_ne_fst (l : List Host.Cell) (a : Nat) : ∀ b ∈ l.filter (fun c => decide (c.1 ≠ a)), b.1 ≠ a := by
  intro b hb
  simpa using (List.mem_filter.mp hb).2

/-- A read after a write: the value written at the same address, the old value at every other (R31, R33). -/
theorem Memory.get_set (m : Memory) (a b : Nat) (v : Byte) : (m.set a v).get b = if a = b then v else m.get b := by
  unfold Memory.set Memory.get
  by_cases hv : v = 0
  · simp only [hv, if_true]
    exact cellAt_filter m.cells a b
  · simp only [hv, if_false]
    rw [cellAt_insertCell _ _ _ (filter_ne_fst m.cells a), cellAt_filter]
    split <;> simp_all

@[simp] theorem Memory.get_set_same (m : Memory) (a : Nat) (v : Byte) : (m.set a v).get a = v := by
  simp [Memory.get_set]

theorem Memory.get_set_other (m : Memory) {a b : Nat} (v : Byte) (h : b ≠ a) : (m.set a v).get b = m.get b := by
  simp [Memory.get_set, Ne.symm h]

/-- What a one-byte read answers (R32). -/
theorem memRead1_eq (m : Memory) (a : Nat) :
    (a < m.capacity.val ∧ memRead1 m a = .ok (m.get a)) ∨ (m.capacity.val ≤ a ∧ memRead1 m a = .error ⟨a⟩) := by
  unfold memRead1
  split <;> [right; left] <;> exact ⟨by omega, rfl⟩

/-- What a two-byte read answers (R32): the word where both bytes exist, an error otherwise. -/
theorem memRead2_eq (m : Memory) (a : Nat) :
    (a + 1 < m.capacity.val ∧ memRead2 m a = .ok (wordOfBytes (m.get a) (m.get (a + 1)))) ∨
      (m.capacity.val ≤ a + 1 ∧ memRead2 m a = .error ⟨if m.capacity.val ≤ a then a else a + 1⟩) := by
  unfold memRead2
  by_cases h1 : m.capacity.val ≤ a
  · exact .inr ⟨by omega, by simp [h1]⟩
  · by_cases h2 : m.capacity.val ≤ a + 1
    · exact .inr ⟨h2, by simp [h1, h2]⟩
    · exact .inl ⟨by omega, by simp [h1, h2]⟩

/-- What a write answers (R33). -/
theorem memWrite1_eq (m : Memory) (a : Nat) (v : Byte) :
    (a < m.capacity.val ∧ memWrite1 m a v = .ok (m.set a v)) ∨ (m.capacity.val ≤ a ∧ memWrite1 m a v = .error ⟨a⟩) := by
  unfold memWrite1
  split <;> [right; left] <;> exact ⟨by omega, rfl⟩

/-! The canonical form. -/

theorem cellsRising_iff (l : List Host.Cell) : cellsRising l = true ↔ l.Pairwise (fun c d => c.1 < d.1) := by
  induction l with
  | nil => simp [cellsRising]
  | cons c rest ih =>
    cases rest with
    | nil => simp [cellsRising]
    | cons d rest' =>
      simp only [cellsRising, Bool.and_eq_true, decide_eq_true_eq, ih, List.pairwise_cons]
      constructor
      · rintro ⟨hcd, hd, hp⟩
        refine ⟨?_, hd, hp⟩
        intro x hx
        rcases List.mem_cons.mp hx with rfl | hx
        · exact hcd
        · exact Nat.lt_trans hcd (hd x hx)
      · rintro ⟨hc, hd, hp⟩
        exact ⟨hc d (by simp), hd, hp⟩

theorem Memory.wf_iff (m : Memory) :
    m.wf = true ↔ m.cells.Pairwise (fun c d => c.1 < d.1) ∧ ∀ c ∈ m.cells, c.1 < m.capacity.val ∧ c.2 ≠ 0 := by
  unfold Memory.wf
  simp only [Bool.and_eq_true, cellsRising_iff, List.all_eq_true, decide_eq_true_eq]

theorem mem_insertCell (l : List Host.Cell) (c x : Host.Cell) : x ∈ insertCell l c ↔ x = c ∨ x ∈ l := by
  induction l with
  | nil => simp [insertCell]
  | cons b rest ih =>
    by_cases hlt : c.1 < b.1
    · simp [insertCell, hlt]
    · simp only [insertCell, hlt, if_false, List.mem_cons, ih]
      tauto

theorem insertCell_rising (l : List Host.Cell) (c : Host.Cell) (hl : l.Pairwise (fun x y => x.1 < y.1))
    (hc : ∀ b ∈ l, b.1 ≠ c.1) : (insertCell l c).Pairwise (fun x y => x.1 < y.1) := by
  induction l with
  | nil => simp [insertCell]
  | cons b rest ih =>
    have hb := (List.pairwise_cons.mp hl).1
    have hr := (List.pairwise_cons.mp hl).2
    by_cases hlt : c.1 < b.1
    · simp only [insertCell, hlt, if_true]
      refine List.pairwise_cons.mpr ⟨?_, hl⟩
      intro x hx
      rcases List.mem_cons.mp hx with rfl | hx
      · exact hlt
      · exact Nat.lt_trans hlt (hb x hx)
    · simp only [insertCell, hlt, if_false]
      refine List.pairwise_cons.mpr ⟨?_, ih hr (fun x hx => hc x (by simp [hx]))⟩
      intro x hx
      rcases (mem_insertCell rest c x).mp hx with rfl | hx
      · have := hc b (by simp)
        omega
      · exact hb x hx

theorem Memory.set_cells (m : Memory) (a : Nat) (v : Byte) :
    (m.set a v).cells = if v = 0 then m.cells.filter (fun c => decide (c.1 ≠ a))
      else insertCell (m.cells.filter (fun c => decide (c.1 ≠ a))) (a, v) := rfl

/-- A write inside the capacity keeps the canonical form. -/
theorem Memory.set_keeps_wf (m : Memory) (a : Nat) (v : Byte) (h : m.wf = true) (ha : a < m.capacity.val) :
    (m.set a v).wf = true := by
  rw [Memory.wf_iff] at h ⊢
  obtain ⟨hp, hc⟩ := h
  have hpf := hp.filter (fun c => decide (c.1 ≠ a))
  have hcf : ∀ c ∈ m.cells.filter (fun c => decide (c.1 ≠ a)), c.1 < m.capacity.val ∧ c.2 ≠ 0 :=
    fun c hm => hc c (List.mem_filter.mp hm).1
  rw [Memory.set_cells, Memory.set_capacity]
  by_cases hv : v = 0
  · simp only [hv, if_true]
    exact ⟨hpf, hcf⟩
  · simp only [hv, if_false]
    refine ⟨insertCell_rising _ (a, v) hpf (filter_ne_fst m.cells a), ?_⟩
    intro c hm
    rcases (mem_insertCell _ _ _).mp hm with rfl | hm
    · exact ⟨ha, hv⟩
    · exact hcf c hm

/-- The access primitive keeps the canonical form. -/
theorem memWrite1_keeps_wf {m m' : Memory} {a : Nat} {v : Byte} (h : m.wf = true) (hw : memWrite1 m a v = .ok m') :
    m'.wf = true := by
  rcases memWrite1_eq m a v with ⟨ha, he⟩ | ⟨_, he⟩
  · rw [he] at hw
    cases hw
    exact Memory.set_keeps_wf m a v h ha
  · rw [he] at hw
    cases hw

/-- A built memory is canonical. -/
theorem Memory.build_wf (c : Fin 257) : (Memory.build c).wf = true := rfl

theorem Memory.writeProgram_capacity (program : List Instr) (m : Memory) (i : Nat) :
    (m.writeProgram i program).capacity = m.capacity := by
  induction program generalizing m i with
  | nil => rfl
  | cons instr rest ih => simp [Memory.writeProgram, ih]

/-- The loader's loop keeps the canonical form while the program fits. -/
theorem Memory.writeProgram_keeps_wf (program : List Instr) (m : Memory) (i : Nat) (h : m.wf = true)
    (hfit : 2 * (i + program.length) ≤ m.capacity.val) : (m.writeProgram i program).wf = true := by
  induction program generalizing m i with
  | nil => exact h
  | cons instr rest ih =>
    simp only [List.length_cons] at hfit
    simp only [Memory.writeProgram]
    refine ih _ _ ?_ (by simp only [Memory.set_capacity]; omega)
    refine Memory.set_keeps_wf _ _ _ (Memory.set_keeps_wf _ _ _ h (by omega)) ?_
    simp only [Memory.set_capacity]
    omega

/-- Loading keeps the canonical form (R105). -/
theorem Memory.loadProgram_keeps_wf {m m' : Memory} {program : List Instr} (h : m.wf = true)
    (hl : m.loadProgram program = .ok m') : m'.wf = true := by
  unfold Memory.loadProgram at hl
  split at hl
  · rename_i hfit
    cases hl
    exact Memory.writeProgram_keeps_wf program m 0 h (by simpa [programFits] using hfit)
  · cases hl

/-- The write of `withFetchWord` keeps the canonical form. -/
theorem State.withFetchWord_keeps_wf (s : State) (nbits w : Nat) (h : s.mem.wf = true) :
    (s.withFetchWord nbits w).mem.wf = true := by
  unfold State.withFetchWord
  split
  · refine Memory.set_keeps_wf _ _ _ (Memory.set_keeps_wf _ _ _ h (by omega)) ?_
    simp only [Memory.set_capacity]
    omega
  · exact h

end Sys2Proof.Machine
end

