-- ==== Sys2Proof/Laws/Exec.lean ====
section
/-! SUPPORT. One lemma per shared operation and per phase: everything it can do, said once. -/

namespace Sys2Proof.Machine

theorem wrap8_add (a b : Byte) : wrap8 (a.toNat + b.toNat) = a + b := by
  apply BitVec.eq_of_toInt_eq
  unfold wrap8
  rw [BitVec.toInt_ofInt, BitVec.toInt_add, BitVec.toInt_eq_toNat_bmod a, BitVec.toInt_eq_toNat_bmod b]
  simp

theorem wrap8_sub (a b : Byte) : wrap8 (a.toNat - b.toNat) = a - b := by
  apply BitVec.eq_of_toInt_eq
  unfold wrap8
  rw [BitVec.toInt_ofInt, BitVec.toInt_sub, BitVec.toInt_eq_toNat_bmod a, BitVec.toInt_eq_toNat_bmod b]
  simp

/-- The ALU on bit vectors (R85). -/
theorem alu_eq (op : AluOp) (a b : Byte) :
    alu op a b = match op with
      | .and => a &&& b
      | .add => a + b
      | .sub => a - b := by
  cases op
  · rfl
  · exact wrap8_add a b
  · exact wrap8_sub a b

/-- Writing a register changes nothing else (R10). -/
theorem writeReg_frame (s : State) (d : Reg) (v : Byte) : SameExceptReg d s (s.writeReg d v) :=
  ⟨fun _ h => State.readReg_writeReg_other s v h, rfl, rfl, rfl, rfl, fun _ => rfl⟩

/-- Storing a byte changes nothing else (R33). -/
theorem setMem_set_frame (s : State) (a : Nat) (v : Byte) : SameExceptByte a s (s.setMem (s.mem.set a v)) :=
  ⟨fun _ => rfl, rfl, rfl, rfl, rfl, fun _ h => Memory.get_set_other s.mem v h⟩

/-- Raising changes only the latch (R113). -/
theorem raise_frame (c : Cause) (s : State) : SameExceptFault s (raise c s) :=
  ⟨fun _ => rfl, rfl, rfl, rfl, fun _ => rfl⟩

/-- What `Ldr` does (R95). -/
theorem execLdr_eq (d : Reg) (a : Byte) (s : State) :
    (a.toNat < s.mem.capacity.val ∧ execLdr d a s = .next (s.writeReg d (s.mem.get a.toNat))) ∨
      (s.mem.capacity.val ≤ a.toNat ∧ execLdr d a s = .next (raise .addressErrorExecute s)) := by
  unfold execLdr effectiveAddress
  rcases memRead1_eq s.mem a.toNat with ⟨h, e⟩ | ⟨h, e⟩ <;> rw [e]
  · exact .inl ⟨h, rfl⟩
  · exact .inr ⟨h, rfl⟩

/-- What `Str` does (R96). -/
theorem execStr_eq (r : Reg) (a : Byte) (s : State) :
    (a.toNat < s.mem.capacity.val ∧ execStr r a s = .next (s.setMem (s.mem.set a.toNat (s.readReg r)))) ∨
      (s.mem.capacity.val ≤ a.toNat ∧ execStr r a s = .next (raise .addressErrorExecute s)) := by
  unfold execStr effectiveAddress
  rcases memWrite1_eq s.mem a.toNat (s.readReg r) with ⟨h, e⟩ | ⟨h, e⟩ <;> rw [e]
  · exact .inl ⟨h, rfl⟩
  · exact .inr ⟨h, rfl⟩

/-- An instruction that names an address is within the capacity exactly when the address is (90_conflicts.md C2). -/
theorem withinCapacity_iff {i : Instr} {a : Byte} (h : i.address? = some a) (c : Nat) :
    i.withinCapacity c = true ↔ a.toNat < c := by
  simp only [Instr.withinCapacity, h, decide_eq_true_eq]

/-- What the execute phase can do (R73): write the destination register, store one byte that exists, or raise for an
address that does not. -/
theorem exec_cases (i : Instr) (s : State) :
    (∃ d v, i.destination? = some d ∧ i.withinCapacity s.mem.capacity.val = true ∧ exec i s = .next (s.writeReg d v)) ∨
      (∃ r a, i = .str r a ∧ a.toNat < s.mem.capacity.val ∧
        exec i s = .next (s.setMem (s.mem.set a.toNat (s.readReg r)))) ∨
      (∃ a, i.address? = some a ∧ s.mem.capacity.val ≤ a.toNat ∧ exec i s = .next (raise .addressErrorExecute s)) := by
  cases i with
  | and d s1 s2 => exact .inl ⟨d, _, rfl, rfl, rfl⟩
  | mov d v => exact .inl ⟨d, _, rfl, rfl, rfl⟩
  | add d s1 s2 => exact .inl ⟨d, _, rfl, rfl, rfl⟩
  | sub d s1 s2 => exact .inl ⟨d, _, rfl, rfl, rfl⟩
  | ldr d a =>
    rcases execLdr_eq d a s with ⟨h, e⟩ | ⟨h, e⟩
    · exact .inl ⟨d, _, rfl, (withinCapacity_iff rfl _).mpr h, e⟩
    · exact .inr (.inr ⟨a, rfl, h, e⟩)
  | str r a =>
    rcases execStr_eq r a s with ⟨h, e⟩ | ⟨h, e⟩
    · exact .inr (.inl ⟨r, a, rfl, h, e⟩)
    · exact .inr (.inr ⟨a, rfl, h, e⟩)

/-- What the fetch phase does (R71). -/
theorem fetch_eq (s : State) :
    (s.pc.toNat + 1 < s.mem.capacity.val ∧ fetch s = .ok (s.afterFetch (wordAtPc s))) ∨
      (s.mem.capacity.val ≤ s.pc.toNat + 1 ∧ ∃ e, fetch s = .error e) := by
  unfold fetch wordAtPc
  rcases memRead2_eq s.mem s.pc.toNat with ⟨h, e⟩ | ⟨h, e⟩ <;> rw [e]
  · exact .inl ⟨h, rfl⟩
  · exact .inr ⟨h, _, rfl⟩

/-- What a step can do (R70, R114): nothing, one of the two raises before execute, or the decoded instruction. -/
theorem step_cases (s : State) :
    (s.fault ≠ none ∧ step s = .next s) ∨
      (s.fault = none ∧ s.mem.capacity.val ≤ s.pc.toNat + 1 ∧ step s = .next (raise .addressErrorFetch s)) ∨
      (FetchSucceeds s ∧ (∃ e, decode (wordAtPc s) = .error e) ∧
        step s = .next (raise .decodeError (s.afterFetch (wordAtPc s)))) ∨
      (FetchSucceeds s ∧ ∃ i, decode (wordAtPc s) = .ok i ∧ step s = exec i (s.afterFetch (wordAtPc s))) := by
  by_cases hf : s.fault = none
  · have hh : s.halted = false := by simp [State.halted, hf]
    rcases fetch_eq s with ⟨h, e⟩ | ⟨h, x, e⟩
    · rcases hd : decode (wordAtPc s) with y | i
      · exact .inr (.inr (.inl ⟨⟨hf, h⟩, ⟨y, rfl⟩, by simp [step, hh, e, hd]⟩))
      · exact .inr (.inr (.inr ⟨⟨hf, h⟩, i, rfl, by simp [step, hh, e, hd]⟩))
    · exact .inr (.inl ⟨hf, h, by simp [step, hh, e]⟩)
  · refine .inl ⟨hf, ?_⟩
    have hh : s.halted = true := by simpa [State.halted, Option.isSome_iff_ne_none] using hf
    simp [step, hh]

/-- `pc <- pc + 2` does not wrap where the fetch succeeds (R75). -/
theorem pc_add_two {s : State} (h : s.pc.toNat + 1 < s.mem.capacity.val) : (s.pc + 2).toNat = s.pc.toNat + 2 := by
  have := s.mem.capacity.isLt
  rw [BitVec.toNat_add, show (2 : Word).toNat = 2 from rfl]
  omega

/-- Which words decode, by their tag (R55, R56). -/
theorem decode_tag (w : Word) :
    (∃ i, decode w = .ok i ∧ 1 ≤ tag w ∧ tag w ≤ 6) ∨ (decode w = .error .unknownOpcode ∧ (tag w = 0 ∨ 7 ≤ tag w)) := by
  unfold decode
  generalize tag w = t
  match t with
  | 0 => exact .inr ⟨rfl, .inl rfl⟩
  | 1 => exact .inl ⟨_, rfl, by omega, by omega⟩
  | 2 => exact .inl ⟨_, rfl, by omega, by omega⟩
  | 3 => exact .inl ⟨_, rfl, by omega, by omega⟩
  | 4 => exact .inl ⟨_, rfl, by omega, by omega⟩
  | 5 => exact .inl ⟨_, rfl, by omega, by omega⟩
  | 6 => exact .inl ⟨_, rfl, by omega, by omega⟩
  | n + 7 => exact .inr ⟨rfl, .inr (by omega)⟩

end Sys2Proof.Machine
end

