-- ==== Sys2Proof/Laws/Blocks.lean ====
section
/-! SUPPORT. What the memory interface issues and what the decoder block reads, said once per function. -/

namespace Sys2Proof.Machine

/-- A core that is halted or cannot fetch issues nothing (R101). -/
theorem transactions_of_not_fetch {s : State} (h : ¬ FetchSucceeds s) : transactions s = [] := by
  unfold transactions
  by_cases hf : s.fault = none
  · rcases fetch_eq s with ⟨h', e⟩ | ⟨_, x, e⟩
    · exact absurd ⟨hf, h'⟩ h
    · simp [State.halted, hf, e]
  · simp [State.halted, Option.isSome_iff_ne_none, hf]

/-- A core that fetches issues the two fetch reads and the data transactions of what it decodes (R101). -/
theorem transactions_of_fetch {s : State} (h : FetchSucceeds s) :
    transactions s =
      .fetchLow s.pc.toNat (s.mem.get s.pc.toNat) :: .fetchHigh (s.pc.toNat + 1) (s.mem.get (s.pc.toNat + 1)) ::
        match decode (wordAtPc s) with
        | .error _ => []
        | .ok i => dataTransactions i (s.afterFetch (wordAtPc s)) := by
  unfold transactions
  rcases fetch_eq s with ⟨_, e⟩ | ⟨h', _⟩
  · simp only [State.halted, h.1, Option.isSome_none, e, State.afterFetch_ir]
    rfl
  · have := h.2
    omega

/-- An instruction issues no data transaction unless the address it names exists (R101). -/
theorem dataTransactions_of_no_access {i : Instr} {s : State}
    (h : ∀ a, i.address? = some a → s.mem.capacity.val ≤ effectiveAddress a) : dataTransactions i s = [] := by
  cases i with
  | and _ _ _ => rfl
  | mov _ _ => rfl
  | add _ _ _ => rfl
  | sub _ _ _ => rfl
  | ldr _ a => exact if_neg (Nat.not_lt.mpr (h a rfl))
  | str _ a => exact if_neg (Nat.not_lt.mpr (h a rfl))

/-- A `Ldr` whose address exists issues its read (R101). -/
theorem dataTransactions_ldr (d : Reg) {a : Byte} {s : State} (h : effectiveAddress a < s.mem.capacity.val) :
    dataTransactions (.ldr d a) s = [.dataRead (effectiveAddress a) (s.mem.get (effectiveAddress a))] := if_pos h

/-- A `Str` whose address exists issues its write (R101). -/
theorem dataTransactions_str (r : Reg) {a : Byte} {s : State} (h : effectiveAddress a < s.mem.capacity.val) :
    dataTransactions (.str r a) s = [.dataWrite (effectiveAddress a) (s.readReg r)] := if_pos h

/-- A register field is the two bits it stands in. -/
theorem regField_eq_extract (w : Word) (lo : Nat) : regField w lo = (w.extractLsb' lo 2).toFin := by
  apply Fin.ext
  rw [regField_val]
  show _ = (w.extractLsb' lo 2).toNat
  simp [BitVec.extractLsb'_toNat, Nat.shiftRight_eq_div_pow]

/-- The immediate field is the low byte of the word. -/
theorem immField_eq_extract (w : Word) : immField w = w.extractLsb' 0 8 := by
  apply BitVec.eq_of_toNat_eq
  simp [immField_toNat, BitVec.extractLsb'_toNat]

end Sys2Proof.Machine
end

