-- ==== Sys2Proof/Laws/PerInstr.lean ====
section
/-! SUPPORT. Statements made per instruction. EncodeShape: an instruction's operands are in the ranges of R50, its word
carries the tag of R54 and its unused bits are 0 (R60). -/

namespace Sys2Proof.Laws.EncodeShape

/-- The part of a word above its operand fields and below its tag: bits 11:6 of format R3, bits 11:10 of format RI. -/
def unusedBits (i : Instr) : Nat :=
  match i with
  | .and _ _ _ => (encode i).toNat % 4096 / 64
  | .mov _ _ => (encode i).toNat % 4096 / 1024
  | .add _ _ _ => (encode i).toNat % 4096 / 64
  | .sub _ _ _ => (encode i).toNat % 4096 / 64
  | .ldr _ _ => (encode i).toNat % 4096 / 1024
  | .str _ _ => (encode i).toNat % 4096 / 1024

/-- The shape of an encoded instruction. -/
def Statement (i : Instr) : Prop :=
  i.wellFormed = true ∧ tag (encode i) = i.tagNumber ∧ unusedBits i = 0

theorem reg_wellFormed (r : Reg) : registerInRange r.val = true := decide_eq_true r.isLt

theorem byte_wellFormed (v : Byte) : byteInRange v.toNat = true :=
  decide_eq_true (Nat.le_of_lt_succ v.isLt)

theorem r3_shape (t d s1 s2 : Nat) (ht : t < 16) :
    tag (packR3 t d s1 s2) = t ∧ (packR3 t d s1 s2).toNat % 4096 / 64 = 0 := by
  rw [tag_eq, packR3_toNat t d s1 s2 ht]
  omega

theorem ri_shape (t r v : Nat) (ht : t < 16) :
    tag (packRI t r v) = t ∧ (packRI t r v).toNat % 4096 / 1024 = 0 := by
  rw [tag_eq, packRI_toNat t r v ht]
  omega

theorem and (dst src1 src2 : Reg) : Statement (.and dst src1 src2) :=
  ⟨by simp [Instr.wellFormed, Instr.toAsm, AsmInstr.wellFormed, reg_wellFormed], r3_shape 1 _ _ _ (by omega)⟩

theorem mov (dst : Reg) (value : Byte) : Statement (.mov dst value) :=
  ⟨by simp [Instr.wellFormed, Instr.toAsm, AsmInstr.wellFormed, reg_wellFormed, byte_wellFormed],
    ri_shape 2 _ _ (by omega)⟩

theorem add (dst src1 src2 : Reg) : Statement (.add dst src1 src2) :=
  ⟨by simp [Instr.wellFormed, Instr.toAsm, AsmInstr.wellFormed, reg_wellFormed], r3_shape 3 _ _ _ (by omega)⟩

theorem sub (dst src1 src2 : Reg) : Statement (.sub dst src1 src2) :=
  ⟨by simp [Instr.wellFormed, Instr.toAsm, AsmInstr.wellFormed, reg_wellFormed], r3_shape 4 _ _ _ (by omega)⟩

theorem ldr (dst : Reg) (address : Byte) : Statement (.ldr dst address) :=
  ⟨by simp [Instr.wellFormed, Instr.toAsm, AsmInstr.wellFormed, reg_wellFormed, byte_wellFormed],
    ri_shape 5 _ _ (by omega)⟩

theorem str (src : Reg) (address : Byte) : Statement (.str src address) :=
  ⟨by simp [Instr.wellFormed, Instr.toAsm, AsmInstr.wellFormed, reg_wellFormed, byte_wellFormed],
    ri_shape 6 _ _ (by omega)⟩

end Sys2Proof.Laws.EncodeShape
end

