-- ==== Sys2Proof/Machine/Assembler.lean ====
section
/-! DEFINITION. The two spellings of an instruction (spec 30_encoding.md R64): constructor notation, which is canonical,
and the lower-case alias. Toolchain notation; no rule of execution uses it. -/

namespace Sys2Proof.Machine

/-- Numbers separated by a comma and a space (log entry 16). -/
def operandList (operands : List String) : String := String.intercalate ", " operands

/-- The canonical spelling: `And(0, 1, 0)`, `Mov(0, 3)`, `Str(3, 10)` (R64). -/
def canonicalText : AsmInstr → String
  | .and d s1 s2 => "And(" ++ operandList [toString d, toString s1, toString s2] ++ ")"
  | .mov d v => "Mov(" ++ operandList [toString d, toString v] ++ ")"
  | .add d s1 s2 => "Add(" ++ operandList [toString d, toString s1, toString s2] ++ ")"
  | .sub d s1 s2 => "Sub(" ++ operandList [toString d, toString s1, toString s2] ++ ")"
  | .ldr d a => "Ldr(" ++ operandList [toString d, toString a] ++ ")"
  | .str r a => "Str(" ++ operandList [toString r, toString a] ++ ")"

/-- The spelling of a register, `r0` to `r3` (R64, the spec's decision D16). -/
def registerText (r : Reg) : String := "r" ++ toString r.val

/-- The lower-case alias: `and r0, r1, r0`, `mov r0, 3`, `str r3, 10` (R64, the spec's decision D16). -/
def assemblyText : Instr → String
  | .and d s1 s2 => "and " ++ operandList [registerText d, registerText s1, registerText s2]
  | .mov d v => "mov " ++ operandList [registerText d, toString v.toNat]
  | .add d s1 s2 => "add " ++ operandList [registerText d, registerText s1, registerText s2]
  | .sub d s1 s2 => "sub " ++ operandList [registerText d, registerText s1, registerText s2]
  | .ldr d a => "ldr " ++ operandList [registerText d, toString a.toNat]
  | .str r a => "str " ++ operandList [registerText r, toString a.toNat]

/-- A program: "a bracketed, comma-separated list in execution order" (R64). -/
def programText (program : List AsmInstr) : String := "[" ++ operandList (program.map canonicalText) ++ "]"

end Sys2Proof.Machine
end

