-- ==== Sys2Proof/Tests/Slice0.lean ====
section
/-! SUPPORT. Tests: expected results from spec 95_test_vectors.md (the table is named beside each), the well-formedness
smoke tests, and a witness for the hypotheses of each statement of Obligations.lean that has any. -/

namespace Sys2Proof.Tests

open Sys2Proof.Machine

/-! Helpers. -/

/-- A core at `pc` with four register values over a memory of `cap` cells that holds `bytes` from address 0. -/
def coreAt (cap : Fin 257) (pc : Word) (x0 x1 x2 x3 : Byte) (bytes : List Byte) : State :=
  { regs := ⟨x0, x1, x2, x3⟩
    pc := pc
    ir := 0
    fault := none
    mem := (bytes.zipIdx.foldl (fun m b => m.set b.2 b.1) (Memory.build cap)) }

/-- The state an outcome answers. -/
def answered : Host.Outcome State Fault Refusal → Option State
  | .next t => some t
  | .fault _ => none
  | .refused _ => none

/-- The four registers, `pc`, `ir` and the latch code after one step. -/
def seen (s : State) : Option Observation := (answered (step s)).map observe

/-! Well-formedness: one ill-formed term for each check. -/

theorem test_wf_accepts : AsmInstr.wellFormed (.add 3 2 1) = true := by decide
theorem test_wf_refuses_dst : AsmInstr.wellFormed (.and 4 0 0) = false := by decide
theorem test_wf_refuses_src1 : AsmInstr.wellFormed (.add 0 4 0) = false := by decide
theorem test_wf_refuses_src2 : AsmInstr.wellFormed (.sub 0 0 4) = false := by decide
theorem test_wf_refuses_mov_register : AsmInstr.wellFormed (.mov 5 1) = false := by decide
theorem test_wf_refuses_value : AsmInstr.wellFormed (.mov 0 256) = false := by decide
theorem test_wf_refuses_ldr_address : AsmInstr.wellFormed (.ldr 0 300) = false := by decide
theorem test_wf_refuses_str_register : AsmInstr.wellFormed (.str 7 0) = false := by decide
theorem test_wf_instr_always : Instr.wellFormed (.str 3 255) = true := by decide
theorem test_within_refuses_at_capacity : Instr.withinCapacity 16 (.ldr 0 16) = false := by decide
theorem test_within_accepts_below : Instr.withinCapacity 16 (.ldr 0 15) = true := by decide
theorem test_program_refused : programFits 7 [.mov 0 0, .mov 0 0, .mov 0 0, .mov 0 0] = false := by decide
theorem test_memory_wf_refuses_disorder : Memory.wf ⟨16, [(3, 1), (2, 1)]⟩ = false := by decide
theorem test_memory_wf_refuses_zero : Memory.wf ⟨16, [(3, 0)]⟩ = false := by decide
theorem test_memory_wf_refuses_beyond : Memory.wf ⟨16, [(16, 1)]⟩ = false := by decide

/-! Decoding and encoding: tables V-E1, V-E2, V-E3, V-E4. -/

theorem test_decode_and : decode 0b0001000000011110#16 = .ok (.and 1 2 3) := by decide
theorem test_decode_mov : decode 0b0010001010000000#16 = .ok (.mov 2 128) := by decide
theorem test_decode_add : decode 0b0011000000110110#16 = .ok (.add 3 2 1) := by decide
theorem test_decode_sub : decode 0b0100000000101101#16 = .ok (.sub 2 1 3) := by decide
theorem test_decode_ldr : decode 0b0101001010000000#16 = .ok (.ldr 2 128) := by decide
theorem test_decode_str : decode 0b0110000101111111#16 = .ok (.str 1 127) := by decide
theorem test_decode_unused_r3 : decode 0x3FC6#16 = .ok (.add 0 2 1) := by decide
theorem test_decode_unused_ri : decode 0x6FFF#16 = .ok (.str 3 255) := by decide
theorem test_decode_tag_0 : decode 0x0FFF#16 = .error .unknownOpcode := by decide
theorem test_decode_tag_7 : decode 0x7000#16 = .error .unknownOpcode := by decide
theorem test_decode_bytes : decodeBytes [0x0A, 0x63, 0x0A, 0x50] = .ok (.str 3 10, [0x0A, 0x50]) := by decide
theorem test_decode_too_short : decodeBytes [0x0A] = .error .tooShort := by decide
theorem test_table_word : decodeTableWord 16 0x402D = some (.sub 2 1 3) := by decide
theorem test_encode_sub : encode (.sub 2 1 3) = 0x402D#16 := by decide
theorem test_encode_str : encode (.str 3 10) = 0x630A#16 := by decide
theorem test_encode_truncates_mov : AsmInstr.encode (.mov 5 0x1FF) = 0x21FF#16 := by decide
theorem test_encode_truncates_and : AsmInstr.encode (.and 4 5 6) = 0x1009#16 := by decide
theorem test_encode_truncates_str : AsmInstr.encode (.str 7 300) = 0x632C#16 := by decide
theorem test_canonical_text : canonicalText (.str 3 10) = "Str(3, 10)" := by decide
theorem test_assembly_text : assemblyText (.and 0 1 0) = "and r0, r1, r0" := by decide

/-! One step of each instruction: tables V-A, V-M, V-L, program P1. -/

/-- V-A row 200, 100: And gives 64. -/
theorem test_and : seen (coreAt 256 0 200 100 0 0 [0x24, 0x10]) =
    some ⟨2, 0x1024, ⟨200, 100, 64, 0⟩, 0⟩ := by decide
/-- V-A same-register row: `And(2, 1, 1)` copies. -/
theorem test_and_copy : seen (coreAt 256 0 5 9 0 0 [0x25, 0x10]) = some ⟨2, 0x1025, ⟨5, 9, 9, 0⟩, 0⟩ := by decide
/-- Source §8: 200 and 100 give 44. -/
theorem test_add_wraps : seen (coreAt 256 0 200 100 0 0 [0x24, 0x30]) =
    some ⟨2, 0x3024, ⟨200, 100, 44, 0⟩, 0⟩ := by decide
/-- V-A same-register row: `Add(0, 0, 1)` accumulates from the old value. -/
theorem test_add_accumulates : seen (coreAt 256 0 5 9 0 0 [0x04, 0x30]) =
    some ⟨2, 0x3004, ⟨14, 9, 0, 0⟩, 0⟩ := by decide
/-- V-A same-register row: `Sub(0, 1, 0)` is 9 - 5. -/
theorem test_sub_order : seen (coreAt 256 0 5 9 0 0 [0x01, 0x40]) = some ⟨2, 0x4001, ⟨4, 9, 0, 0⟩, 0⟩ := by decide
/-- V-A same-register row: `Sub(0, 0, 1)` is 5 - 9 + 256. -/
theorem test_sub_wraps : seen (coreAt 256 0 5 9 0 0 [0x04, 0x40]) = some ⟨2, 0x4004, ⟨252, 9, 0, 0⟩, 0⟩ := by decide
/-- V-M: no sign extension. -/
theorem test_mov : seen (coreAt 256 0 9 9 9 9 [0x80, 0x21]) = some ⟨2, 0x2180, ⟨9, 128, 9, 9⟩, 0⟩ := by decide
/-- V-M: unused bits ignored, `ir` keeps them. -/
theorem test_mov_unused_bits : seen (coreAt 256 0 9 9 9 9 [0x05, 0x2C]) =
    some ⟨2, 0x2C05, ⟨5, 9, 9, 9⟩, 0⟩ := by decide
/-- V-L: `Ldr(2, 1)` loads its own high byte. -/
theorem test_ldr_own_byte : seen (coreAt 256 0 0 0 0 0 [0x01, 0x52]) = some ⟨2, 0x5201, ⟨0, 0, 0x52, 0⟩, 0⟩ := by decide
/-- V-L: with `CAP = 16`, `Ldr(0, 16)` is an AddressError and `x` is unchanged. -/
theorem test_ldr_beyond : seen (coreAt 16 0 1 2 3 4 [0x10, 0x50]) = some ⟨2, 0x5010, ⟨1, 2, 3, 4⟩, 3⟩ := by decide
/-- V-L: `Str(2, 255)` stores at the highest address. -/
theorem test_str_highest : (answered (step (coreAt 256 0 0 0 0xAB 0 [0xFF, 0x62]))).map (fun t => t.mem.get 255) =
    some 0xAB := by decide
/-- V-L: with `CAP = 16`, `Str(1, 255)` is an AddressError and memory is unchanged. -/
theorem test_str_beyond : (answered (step (coreAt 16 0 1 2 3 4 [0xFF, 0x61]))).map (fun t => (faultCode t.fault, t.mem)) =
    some (3, (coreAt 16 0 1 2 3 4 [0xFF, 0x61]).mem) := by decide

/-! Fetch, decode and fault vectors: table V-F. -/

/-- V-F: memory all zero is a DecodeError; this is also the step right after reset. -/
theorem test_reset_step : seen State.reset = some ⟨2, 0, ⟨0, 0, 0, 0⟩, 1⟩ := by decide
/-- V-F: an odd `pc` fetches bytes 1 and 2. -/
theorem test_odd_pc : seen (coreAt 256 1 0 0 0 0 [0, 0x20, 0x21]) = some ⟨3, 0x2120, ⟨0, 32, 0, 0⟩, 0⟩ := by decide
/-- V-F: `pc = 0xFFFF` is a fetch AddressError, nothing wraps. -/
theorem test_fetch_no_wrap : seen (coreAt 256 0xFFFF 0 0 0 0 []) = some ⟨0xFFFF, 0, ⟨0, 0, 0, 0⟩, 2⟩ := by decide
/-- V-F: `CAP = 7`, `pc = 6`: the second byte does not exist. -/
theorem test_fetch_second_byte : seen (coreAt 7 6 0 0 0 0 [0, 0, 0, 0, 0, 0, 0x20]) = some ⟨6, 0, ⟨0, 0, 0, 0⟩, 2⟩ := by
  decide
/-- A canonical memory: a byte set to 0 again is listed no longer. -/
theorem test_memory_canonical : ((Memory.build 16).set 3 5).set 3 0 = Memory.build 16 := by decide
/-- The fetch word interface runs the word as the first instruction after reset. -/
theorem test_with_fetch_word : seen (State.reset.withFetchWord 16 0x2003) = some ⟨2, 0x2003, ⟨3, 0, 0, 0⟩, 0⟩ := by decide
/-- V-H: two instructions are stored low byte first. -/
theorem test_load_program : ((Memory.build 256).loadProgram [.mov 0 3, .mov 1 1]).toOption.map (fun m => m.cells) =
    some [(0, 0x03), (1, 0x20), (2, 0x01), (3, 0x21)] := by decide
/-- P6: `run(5)` ends at the AddressError of step 3. -/
theorem test_run_stops : (answered (run 5 (coreAt 8 0 0 0 0 0 [0x01, 0x20, 0x02, 0x21, 0x08, 0x52, 0x34, 0x30]))).map observe =
    some ⟨6, 0x5208, ⟨1, 2, 0, 0⟩, 3⟩ := by decide

/-! Witnesses: concrete states and operands that meet the hypotheses of a statement, clause by clause. -/

/-- `Str(3, 2)`, which stores to the low byte of the next word, and `Str(3, 3)` to its high byte. -/
def storeLow : State := coreAt 256 0 0 0 0 77 [0x02, 0x63]
def storeHigh : State := coreAt 256 0 0 0 0 77 [0x03, 0x63]

theorem witness_illegal_tags : (0#4 = 0#4 ∨ 7 ≤ (0#4).toNat) ∧ (7#4 = 0#4 ∨ 7 ≤ (7#4).toNat) ∧
    (15#4 = 0#4 ∨ 7 ≤ (15#4).toNat) := by decide
theorem witness_word_decodes_r3 : decode 0x1FFF#16 = .ok (.and 3 3 3) := by decide
theorem witness_word_decodes_ri : decode 0x2C05#16 = .ok (.mov 0 5) := by decide
theorem witness_same_encoding : encode (.ldr 3 255) = encode (.ldr 3 255) := by decide
theorem witness_program_index : ([Instr.mov 0 3, .mov 1 1])[1]? = some (.mov 1 1) := by decide
theorem witness_address_below : effectiveAddress 15 < (coreAt 16 0 1 2 3 4 []).mem.capacity.val := by decide
theorem witness_address_at_capacity : (coreAt 16 0 1 2 3 4 []).mem.capacity.val ≤ effectiveAddress 16 := by decide
theorem witness_full_capacity : State.reset.mem.capacity.val = 256 := by decide
theorem witness_undo : (1 : Reg) ≠ 2 := by decide
theorem witness_second_byte_missing : 15 < (Memory.build 16).capacity.val ∧ (Memory.build 16).capacity.val ≤ 15 + 1 := by
  decide
theorem witness_both_bytes : 14 + 1 < (Memory.build 16).capacity.val := by decide
theorem witness_no_byte : (Memory.build 16).capacity.val ≤ 16 := by decide
theorem witness_fetch_succeeds : FetchSucceeds storeLow := ⟨by decide, by decide⟩
theorem witness_fetch_last : FetchSucceeds (coreAt 256 254 0 0 0 0 []) := ⟨by decide, by decide⟩
theorem witness_fetch_fails : ¬ FetchSucceeds (coreAt 256 255 0 0 0 0 []) := fun h => absurd h.2 (by decide)
theorem witness_fetch_halted : ¬ FetchSucceeds (raise .decodeError storeLow) := fun h => absurd h.1 (by decide)
theorem witness_cell_changes : (answered (step storeLow)).map (fun t => decide (t.mem.get 2 ≠ storeLow.mem.get 2)) =
    some true := by decide
theorem witness_register_changes : (answered (step (coreAt 256 0 0 0 0 0 [0x03, 0x20]))).map (fun t => decide (t.readReg 0 ≠ 0)) =
    some true := by decide
theorem witness_next_fetch_low : decode (wordAtPc storeLow) = .ok (.str 3 2) ∧ effectiveAddress 2 < storeLow.mem.capacity.val ∧
    (answered (step storeLow)).map (fun t => decide (t.fault = none ∧ t.pc.toNat + 1 < t.mem.capacity.val ∧
      t.pc.toNat = effectiveAddress 2)) = some true := by decide
theorem witness_next_fetch_high : decode (wordAtPc storeHigh) = .ok (.str 3 3) ∧ effectiveAddress 3 < storeHigh.mem.capacity.val ∧
    (answered (step storeHigh)).map (fun t => decide (t.fault = none ∧ t.pc.toNat + 1 < t.mem.capacity.val ∧
      t.pc.toNat + 1 = effectiveAddress 3)) = some true := by decide
theorem witness_step_runs : storeLow.fault = none ∧ storeLow.pc.toNat + 1 < storeLow.mem.capacity.val ∧
    (0x6302#16).toNat = (storeLow.mem.get 0).toNat + 256 * (storeLow.mem.get 1).toNat ∧
    decode 0x6302#16 = .ok (.str 3 2) := by decide
theorem witness_raise_fetch : (coreAt 8 8 0 0 0 0 []).fault = none ∧
    (coreAt 8 8 0 0 0 0 []).mem.capacity.val ≤ (coreAt 8 8 0 0 0 0 []).pc.toNat + 1 := by decide
theorem witness_raise_decode : FetchSucceeds (coreAt 8 0 0 0 0 0 [0, 0x70]) ∧ tag (wordAtPc (coreAt 8 0 0 0 0 0 [0, 0x70])) = 7 ∧
    FetchSucceeds (coreAt 8 0 0 0 0 0 []) ∧ tag (wordAtPc (coreAt 8 0 0 0 0 0 [])) = 0 :=
  ⟨⟨by decide, by decide⟩, by decide, ⟨by decide, by decide⟩, by decide⟩
theorem witness_raise_execute : FetchSucceeds (coreAt 16 0 1 2 3 4 [0x10, 0x50]) ∧
    tag (wordAtPc (coreAt 16 0 1 2 3 4 [0x10, 0x50])) = 5 ∧
    (coreAt 16 0 1 2 3 4 [0x10, 0x50]).mem.capacity.val ≤ (wordAtPc (coreAt 16 0 1 2 3 4 [0x10, 0x50])).toNat % 256 ∧
    FetchSucceeds (coreAt 16 0 1 2 3 4 [0x10, 0x60]) ∧ tag (wordAtPc (coreAt 16 0 1 2 3 4 [0x10, 0x60])) = 6 :=
  ⟨⟨by decide, by decide⟩, by decide, by decide, ⟨by decide, by decide⟩, by decide⟩
theorem witness_no_raise : FetchSucceeds (coreAt 16 0 1 2 3 4 [0x0F, 0x50]) ∧
    tag (wordAtPc (coreAt 16 0 1 2 3 4 [0x0F, 0x50])) = 5 ∧
    (wordAtPc (coreAt 16 0 1 2 3 4 [0x0F, 0x50])).toNat % 256 < (coreAt 16 0 1 2 3 4 [0x0F, 0x50]).mem.capacity.val ∧
    tag (wordAtPc (coreAt 16 0 1 2 3 4 [0x00, 0x10])) = 1 :=
  ⟨⟨by decide, by decide⟩, by decide, by decide, by decide⟩
theorem witness_halted : (raise .addressErrorFetch storeLow).fault ≠ none := by decide
theorem witness_offending : (seen (coreAt 8 0 0 0 0 0 [])).map (fun o => o.fault) = some 1 ∧
    (seen (coreAt 8 7 0 0 0 0 [])).map (fun o => o.fault) = some 2 ∧
    (seen (coreAt 8 0 0 0 0 0 [0x08, 0x52])).map (fun o => o.fault) = some 3 := by decide
theorem witness_control_rows : decode 0x101E#16 = .ok (.and 1 2 3) ∧ decode 0x3036#16 = .ok (.add 3 2 1) ∧
    decode 0x402D#16 = .ok (.sub 2 1 3) ∧ decode 0x23FF#16 = .ok (.mov 3 255) ∧ decode 0x53FF#16 = .ok (.ldr 3 255) ∧
    decode 0x63FF#16 = .ok (.str 3 255) := by decide
/-- The memory interface's clauses: `Ldr(0, 15)` in range of 16 bytes, `Str(1, 15)` too, and `Ldr(0, 16)` and And issue none. -/
theorem witness_transactions : FetchSucceeds (coreAt 16 0 1 2 3 4 [0x0F, 0x50]) ∧
    decode (wordAtPc (coreAt 16 0 1 2 3 4 [0x0F, 0x50])) = .ok (.ldr 0 15) ∧
    decode (wordAtPc (coreAt 16 0 1 2 3 4 [0x0F, 0x61])) = .ok (.str 1 15) ∧
    effectiveAddress 15 < (coreAt 16 0 1 2 3 4 [0x0F, 0x61]).mem.capacity.val ∧
    decode (wordAtPc (coreAt 16 0 1 2 3 4 [0x10, 0x50])) = .ok (.ldr 0 16) ∧
    (coreAt 16 0 1 2 3 4 [0x10, 0x50]).mem.capacity.val ≤ effectiveAddress 16 :=
  ⟨⟨by decide, by decide⟩, by decide, by decide, by decide, by decide, by decide⟩
/-- R101, V-L: `Str(3, 2)` of 77 issues its two fetch reads and its write. -/
theorem test_transactions_str : transactions storeLow =
    [.fetchLow 0 0x02, .fetchHigh 1 0x63, .dataWrite 2 77] := by decide
/-- R63: the row of Str, for word `0x630A`. -/
theorem test_control_str : ((decoderOutputs 0x630A#16).regWe, (decoderOutputs 0x630A#16).memWe,
    (decoderOutputs 0x630A#16).memAddr, (decoderOutputs 0x630A#16).regRi) = (false, true, some 10, 3) := by decide
theorem witness_illegal_word : decode 0xFFFF#16 = .error .unknownOpcode := by decide
theorem witness_invariant : Inv (State.resetWith (coreAt 8 0 0 0 0 0 [0x08, 0x52]).mem) :=
  ⟨by decide, by decide, by decide, trivial⟩
theorem witness_load : (Memory.build 8).wf = true ∧
    ((Memory.build 8).loadProgram [.mov 0 1, .mov 1 2, .ldr 2 8, .add 3 0 1]).toOption.isSome = true := by decide
theorem witness_load_fits_boundary : 2 * [Instr.mov 0 1, .mov 1 2, .ldr 2 8, .add 3 0 1].length ≤ (Memory.build 8).capacity.val ∧
    (Memory.build 7).capacity.val < 2 * [Instr.mov 0 1, .mov 1 2, .ldr 2 8, .add 3 0 1].length := by decide
theorem witness_loaded_instruction :
    (Memory.build 8).loadProgram [.mov 0 1, .str 0 7] = .ok (coreAt 8 2 0 0 0 0 [0x01, 0x20, 0x07, 0x60]).mem ∧
    ([Instr.mov 0 1, .str 0 7])[1]? = some (.str 0 7) ∧ (coreAt 8 2 0 0 0 0 [0x01, 0x20, 0x07, 0x60]).fault = none ∧
    (coreAt 8 2 0 0 0 0 [0x01, 0x20, 0x07, 0x60]).pc.toNat = 2 * 1 := by decide
theorem witness_clean_run : (answered (run 2 (coreAt 8 0 0 0 0 0 [0x01, 0x20, 0x07, 0x60]))).map (fun t => t.fault) = some none := by
  decide

end Sys2Proof.Tests
end

section
/-! SUPPORT. What a step does to the registers and to `ir` (spec 10_state.md R10, R12, R18), by whether its fetch
succeeds, and the two statements about it. -/

namespace Sys2Proof.Machine

/-- The fetch phase overwrites `ir` without reading it (R12, R71). -/
theorem fetch_with_ir (s : State) (w : Word) : fetch { s with ir := w } = fetch s := rfl

/-- A step whose fetch fails, or that finds the core halted, changes at most the latch (R70, R71). -/
theorem step_of_not_fetchSucceeds {s : State} (h : ¬ FetchSucceeds s) :
    ∃ f, step s = .next { s with fault := f } := by
  rcases step_cases s with ⟨_, e⟩ | ⟨_, _, e⟩ | ⟨hs, _⟩ | ⟨hs, _⟩
  · exact ⟨s.fault, e⟩
  · exact ⟨some .addressErrorFetch, e⟩
  · exact absurd hs h
  · exact absurd hs h

/-- What a step whose fetch succeeds can do (R72, R73): raise a DecodeError, or execute what the word decodes to. -/
theorem step_cases_of_fetchSucceeds {s : State} (h : FetchSucceeds s) :
    step s = .next (raise .decodeError (s.afterFetch (wordAtPc s))) ∨
      ∃ i, decode (wordAtPc s) = .ok i ∧ step s = exec i (s.afterFetch (wordAtPc s)) := by
  rcases step_cases s with ⟨hf, _⟩ | ⟨_, hc, _⟩ | ⟨_, _, e⟩ | ⟨_, i, hd, e⟩
  · exact absurd h.1 hf
  · exact absurd h.2 (Nat.not_lt.mpr hc)
  · exact .inl e
  · exact .inr ⟨i, hd, e⟩

/-- A step whose fetch succeeds is the same whatever `ir` held before it (R12). -/
theorem step_with_ir {s : State} (h : FetchSucceeds s) (w : Word) : step { s with ir := w } = step s := by
  rcases fetch_eq s with ⟨_, hfetch⟩ | ⟨hc, _⟩
  · have hrun : s.halted = false := by simp [State.halted, h.1]
    have hrun_ir : State.halted { s with ir := w } = false := hrun
    simp [step, hrun, hrun_ir, fetch_with_ir, hfetch]
  · exact absurd h.2 (Nat.not_lt.mpr hc)

/-- The execute phase completes and leaves `ir` as the fetch left it (R12, R73). -/
theorem exec_keeps_ir (i : Instr) (s : State) : ∃ t, exec i s = .next t ∧ t.ir = s.ir := by
  rcases exec_cases i s with ⟨_, _, _, _, e⟩ | ⟨_, _, _, _, e⟩ | ⟨_, _, _, e⟩ <;> exact ⟨_, e, rfl⟩

/-- The execute phase completes and changes no register but the destination of its instruction (R18). -/
theorem exec_changes_only_destination (i : Instr) (s : State) :
    ∃ t, exec i s = .next t ∧ ∀ r, t.readReg r ≠ s.readReg r → i.destination? = some r := by
  rcases exec_cases i s with ⟨d, v, hd, _, e⟩ | ⟨_, _, _, _, e⟩ | ⟨_, _, _, e⟩
  · refine ⟨_, e, fun r hne => ?_⟩
    have hrd : r = d := by
      by_contra hrd
      exact hne (State.readReg_writeReg_other s v hrd)
    rw [hd, hrd]
  · exact ⟨_, e, fun r hne => absurd (State.readReg_setMem _ _ r) hne⟩
  · exact ⟨_, e, fun r hne => absurd (readReg_raise _ _ r) hne⟩

/-- A step whose fetch succeeds completes with `ir` holding the word at `pc`, whether it then fails to decode, faults
in execute or runs its instruction (R12). -/
theorem step_loads_ir {s : State} (h : FetchSucceeds s) : ∃ t, step s = .next t ∧ t.ir = wordAtPc s := by
  rcases step_cases_of_fetchSucceeds h with e | ⟨i, _, e⟩
  · exact ⟨_, e, rfl⟩
  · rw [e]
    exact exec_keeps_ir i (s.afterFetch (wordAtPc s))

/-- Settles O27: a successful fetch overwrites `ir` and no later phase writes it; no other step touches it. -/
theorem instructionRegisterHoldsLastFetch : Obligations.InstructionRegisterHoldsLastFetch := by
  intro s
  by_cases h : FetchSucceeds s
  · obtain ⟨t, e, hir⟩ := step_loads_ir h
    refine ⟨t, e, fun _ => ⟨?_, fun w => (step_with_ir h w).trans e⟩, fun hn => absurd h hn, rfl⟩
    rw [hir, wordAtPc, wordOfBytes_toNat]
  · obtain ⟨f, e⟩ := step_of_not_fetchSucceeds h
    exact ⟨_, e, fun hs => absurd hs h, fun _ => rfl, rfl⟩

/-- Settles O30: only the execute phase writes a register, and there only the destination of the decoded word. -/
theorem onlyDestinationRegisterChanges : Obligations.OnlyDestinationRegisterChanges := by
  intro s r
  by_cases h : FetchSucceeds s
  · rcases step_cases_of_fetchSucceeds h with e | ⟨i, hd, e⟩
    · exact ⟨_, e, fun hne => absurd rfl hne⟩
    · obtain ⟨t, et, hdest⟩ := exec_changes_only_destination i (s.afterFetch (wordAtPc s))
      exact ⟨t, e.trans et, fun hne => ⟨h, i, hd, hdest r hne⟩⟩
  · obtain ⟨f, e⟩ := step_of_not_fetchSucceeds h
    exact ⟨_, e, fun hne => absurd rfl hne⟩

end Sys2Proof.Machine
end

section
/-! SUPPORT. What the accesses and a step do to the memory (spec 20_memory.md R31 to R33, R40, R42), and the statements
about it. -/

namespace Sys2Proof.Machine

/-- A one-byte read inside the capacity gives the cell (R32). -/
theorem memRead1_of_lt {m : Memory} {a : Nat} (h : a < m.capacity.val) : memRead1 m a = .ok (m.get a) :=
  (memRead1_eq m a).elim And.right fun ⟨hc, _⟩ => absurd h (Nat.not_lt.mpr hc)

/-- A one-byte read beyond the capacity raises (R32). -/
theorem memRead1_of_ge {m : Memory} {a : Nat} (h : m.capacity.val ≤ a) : memRead1 m a = .error ⟨a⟩ :=
  (memRead1_eq m a).elim (fun ⟨hc, _⟩ => absurd hc (Nat.not_lt.mpr h)) And.right

/-- A two-byte read gives the word where both bytes exist (R32). -/
theorem memRead2_of_lt {m : Memory} {a : Nat} (h : a + 1 < m.capacity.val) :
    memRead2 m a = .ok (wordOfBytes (m.get a) (m.get (a + 1))) :=
  (memRead2_eq m a).elim And.right fun ⟨hc, _⟩ => absurd h (Nat.not_lt.mpr hc)

/-- A two-byte read with a byte beyond the capacity raises for the first such byte (R32). -/
theorem memRead2_of_ge {m : Memory} {a : Nat} (h : m.capacity.val ≤ a + 1) :
    memRead2 m a = .error ⟨if m.capacity.val ≤ a then a else a + 1⟩ :=
  (memRead2_eq m a).elim (fun ⟨hc, _⟩ => absurd hc (Nat.not_lt.mpr h)) And.right

/-- Settles O19, one clause for each place `CAP` can have relative to `a` and `a + 1`. -/
theorem memReadTestsEveryAddress : Obligations.MemReadTestsEveryAddress := by
  intro m a
  refine ⟨fun h => ⟨memRead1_of_ge h, ?_⟩, memRead1_of_lt, fun hlo hhi => ?_, fun h => ?_⟩
  · rw [memRead2_of_ge (by omega), if_pos h]
  · rw [memRead2_of_ge hhi, if_neg (by omega)]
  · exact ⟨_, memRead2_of_lt h, wordOfBytes_toNat _ _⟩

/-- Settles O20: a write that takes place is `Memory.set`, whose read-back laws are `get_set_same` and
`get_set_other`. -/
theorem memWriteChangesOneCell : Obligations.MemWriteChangesOneCell := by
  intro m a v
  rcases memWrite1_eq m a v with ⟨h, e⟩ | ⟨h, e⟩
  · exact ⟨fun hc => absurd h (Nat.not_lt.mpr hc),
      fun _ => ⟨_, e, rfl, Memory.get_set_same m a v, fun _ hb => Memory.get_set_other m v hb⟩⟩
  · exact ⟨fun _ => e, fun hc => absurd hc (Nat.not_lt.mpr h)⟩

/-- A `Str` to an address that exists completes with the register's value in that cell (R96). -/
theorem exec_str_of_lt (r : Reg) {a : Byte} {s : State} (h : effectiveAddress a < s.mem.capacity.val) :
    exec (.str r a) s = .next (s.setMem (s.mem.set (effectiveAddress a) (s.readReg r))) :=
  (execStr_eq r a s).elim And.right fun ⟨hc, _⟩ => absurd h (Nat.not_lt.mpr hc)

/-- A `Ldr` from an address that exists completes with the cell's value in its register (R95). -/
theorem exec_ldr_of_lt (d : Reg) {a : Byte} {s : State} (h : effectiveAddress a < s.mem.capacity.val) :
    exec (.ldr d a) s = .next (s.writeReg d (s.mem.get (effectiveAddress a))) :=
  (execLdr_eq d a s).elim And.right fun ⟨hc, _⟩ => absurd h (Nat.not_lt.mpr hc)

/-- Settles O17: the load finds the capacity unchanged and reads the cell the store wrote. -/
theorem storeThenLoadRoundTrips : Obligations.StoreThenLoadRoundTrips := by
  intro r d a s h
  refine ⟨_, _, exec_str_of_lt r h, exec_ldr_of_lt d h, ?_, ?_⟩
  · rw [State.readReg_writeReg_same, State.setMem_mem, Memory.get_set_same]
  · exact Memory.get_set_same s.mem _ _

/-- The execute phase completes with the memory's capacity as it was, and changes no cell but that of a `Str` whose
address exists (R31, R73). -/
theorem exec_changes_only_stored_cell (i : Instr) (s : State) :
    ∃ t, exec i s = .next t ∧ t.mem.capacity = s.mem.capacity ∧ ∀ a, t.mem.get a ≠ s.mem.get a →
      ∃ r x, i = .str r x ∧ effectiveAddress x = a ∧ a < s.mem.capacity.val := by
  rcases exec_cases i s with ⟨_, _, _, _, e⟩ | ⟨r, x, hi, hx, e⟩ | ⟨_, _, _, e⟩
  · exact ⟨_, e, rfl, fun a hne => absurd rfl hne⟩
  · refine ⟨_, e, rfl, fun a hne => ?_⟩
    have hax : a = x.toNat := by
      by_contra hax
      exact hne (Memory.get_set_other s.mem _ hax)
    exact ⟨r, x, hi, hax.symm, hax ▸ hx⟩
  · exact ⟨_, e, rfl, fun a hne => absurd rfl hne⟩

/-- Settles O21: no phase but execute touches the memory, and there only a `Str` does. -/
theorem onlyStrChangesMemory : Obligations.OnlyStrChangesMemory := by
  refine ⟨fun c a => ⟨Memory.build_capacity c, Memory.build_get c a⟩, fun s => ?_⟩
  by_cases h : FetchSucceeds s
  · rcases step_cases_of_fetchSucceeds h with e | ⟨i, hd, e⟩
    · exact ⟨_, e, rfl, fun a hne => absurd rfl hne⟩
    · obtain ⟨t, et, hcap, hcell⟩ := exec_changes_only_stored_cell i (s.afterFetch (wordAtPc s))
      refine ⟨t, e.trans et, hcap, fun a hne => ?_⟩
      obtain ⟨r, x, rfl, hxa, ha⟩ := hcell a hne
      exact ⟨h, r, x, hd, hxa, ha⟩
  · obtain ⟨f, e⟩ := step_of_not_fetchSucceeds h
    exact ⟨_, e, rfl, fun a hne => absurd rfl hne⟩

/-- The step of a core whose fetched word decodes is the execute phase of that instruction (R70 to R73). -/
theorem step_of_decode_ok {s : State} {i : Instr} (h : FetchSucceeds s) (hd : decode (wordAtPc s) = .ok i) :
    step s = exec i (s.afterFetch (wordAtPc s)) := by
  rcases step_cases s with ⟨hf, _⟩ | ⟨_, hc, _⟩ | ⟨_, ⟨x, hx⟩, _⟩ | ⟨_, j, hj, e⟩
  · exact absurd h.1 hf
  · exact absurd h.2 (Nat.not_lt.mpr hc)
  · cases hd.symm.trans hx
  · cases hd.symm.trans hj
    exact e

/-- Bits 7:0 of a little-endian word are its first byte (R34). -/
theorem wordOfBytes_extract_low (lo hi : Byte) : (wordOfBytes lo hi).extractLsb' 0 8 = lo := by
  apply BitVec.eq_of_toNat_eq
  rw [BitVec.extractLsb'_toNat, wordOfBytes_toNat, Nat.shiftRight_zero]
  have := lo.isLt
  omega

/-- Bits 15:8 of a little-endian word are its second byte (R34). -/
theorem wordOfBytes_extract_high (lo hi : Byte) : (wordOfBytes lo hi).extractLsb' 8 8 = hi := by
  apply BitVec.eq_of_toNat_eq
  rw [BitVec.extractLsb'_toNat, wordOfBytes_toNat, Nat.shiftRight_eq_div_pow]
  have := lo.isLt
  have := hi.isLt
  omega

/-- Settles O22: the step after the store loads `ir` with the word at the new `pc` of the stored-to memory, and each
half of that word is the byte at its address. -/
theorem nextFetchSeesStore : Obligations.NextFetchSeesStore := by
  intro s r a h hd ha
  have hstep := (step_of_decode_ok h hd).trans (exec_str_of_lt (s := s.afterFetch (wordAtPc s)) r ha)
  refine ⟨_, hstep, rfl, h.1, fun ht => ?_⟩
  obtain ⟨u, hu, hir⟩ := step_loads_ir ht
  refine ⟨u, hu, fun hpc => ?_, fun hpc => ?_⟩
  · rw [hir, wordAtPc, wordOfBytes_extract_low, hpc]
    exact Memory.get_set_same _ _ _
  · rw [hir, wordAtPc, wordOfBytes_extract_high, hpc]
    exact Memory.get_set_same _ _ _

end Sys2Proof.Machine
end

section
/-! SUPPORT. Instruction words as concatenated fields: what `decode` reads from them, what `encode` makes of them (spec
30_encoding.md R52 to R61), and the statements about both. -/

namespace Sys2Proof.Machine

/-! A word as the concatenation of its fields. -/

/-- The value of a concatenation: the high part is shifted past the low one. -/
theorem toNat_append_add {m n : Nat} (x : BitVec m) (y : BitVec n) : (x ++ y).toNat = x.toNat * 2 ^ n + y.toNat := by
  rw [BitVec.toNat_append, ← Nat.shiftLeft_add_eq_or_of_lt y.isLt, Nat.shiftLeft_eq]

section FormatR3

variable (t : BitVec 4) (u : BitVec 6) (d s2 s1 : BitVec 2)

/-- The value of a word of format R3 (R52). -/
theorem toNat_append_r3 : (t ++ u ++ d ++ s2 ++ s1).toNat =
    t.toNat * 4096 + u.toNat * 64 + d.toNat * 16 + s2.toNat * 4 + s1.toNat := by
  simp only [toNat_append_add]
  omega

theorem tag_append_r3 : tag (t ++ u ++ d ++ s2 ++ s1) = t.toNat := by
  rw [tag_eq, toNat_append_r3]
  omega

theorem dstField_append_r3 : dstField (t ++ u ++ d ++ s2 ++ s1) = d.toFin := by
  apply Fin.ext
  rw [dstField_val, toNat_append_r3, BitVec.val_toFin]
  omega

theorem src2Field_append_r3 : src2Field (t ++ u ++ d ++ s2 ++ s1) = s2.toFin := by
  apply Fin.ext
  rw [src2Field_val, toNat_append_r3, BitVec.val_toFin]
  omega

theorem src1Field_append_r3 : src1Field (t ++ u ++ d ++ s2 ++ s1) = s1.toFin := by
  apply Fin.ext
  rw [src1Field_val, toNat_append_r3, BitVec.val_toFin]
  omega

/-- The three tags of format R3 (R52, R55), whatever the unused bits. -/
theorem decode_append_r3 :
    decode (1#4 ++ u ++ d ++ s2 ++ s1) = .ok (.and d.toFin s1.toFin s2.toFin) ∧
    decode (3#4 ++ u ++ d ++ s2 ++ s1) = .ok (.add d.toFin s1.toFin s2.toFin) ∧
    decode (4#4 ++ u ++ d ++ s2 ++ s1) = .ok (.sub d.toFin s1.toFin s2.toFin) := by
  simp [decode, tag_append_r3, dstField_append_r3, src2Field_append_r3, src1Field_append_r3]

/-- Masking with `0xF03F` clears bits 11:6 and no other (R61 (b)). -/
theorem append_r3_and_mask : (t ++ u ++ d ++ s2 ++ s1) &&& 0xF03F#16 = t ++ 0#6 ++ d ++ s2 ++ s1 := by
  change (t ++ u ++ d ++ s2 ++ s1) &&&
    (BitVec.allOnes 4 ++ 0#6 ++ BitVec.allOnes 2 ++ BitVec.allOnes 2 ++ BitVec.allOnes 2) = _
  simp only [BitVec.and_append, BitVec.and_allOnes, BitVec.and_zero]

end FormatR3

section FormatRI

variable (t : BitVec 4) (u r : BitVec 2) (v : BitVec 8)

/-- The value of a word of format RI (R53). -/
theorem toNat_append_ri : (t ++ u ++ r ++ v).toNat = t.toNat * 4096 + u.toNat * 1024 + r.toNat * 256 + v.toNat := by
  simp only [toNat_append_add]
  omega

theorem tag_append_ri : tag (t ++ u ++ r ++ v) = t.toNat := by
  rw [tag_eq, toNat_append_ri]
  omega

theorem regRiField_append_ri : regRiField (t ++ u ++ r ++ v) = r.toFin := by
  apply Fin.ext
  rw [regRiField_val, toNat_append_ri, BitVec.val_toFin]
  omega

theorem immField_append_ri : immField (t ++ u ++ r ++ v) = v := by
  apply BitVec.eq_of_toNat_eq
  rw [immField_toNat, toNat_append_ri]
  omega

/-- The three tags of format RI (R53, R55), whatever the unused bits. -/
theorem decode_append_ri :
    decode (2#4 ++ u ++ r ++ v) = .ok (.mov r.toFin v) ∧
    decode (5#4 ++ u ++ r ++ v) = .ok (.ldr r.toFin v) ∧
    decode (6#4 ++ u ++ r ++ v) = .ok (.str r.toFin v) := by
  simp [decode, tag_append_ri, regRiField_append_ri, immField_append_ri]

/-- Masking with `0xF3FF` clears bits 11:10 and no other (R61 (b)). -/
theorem append_ri_and_mask : (t ++ u ++ r ++ v) &&& 0xF3FF#16 = t ++ 0#2 ++ r ++ v := by
  change (t ++ u ++ r ++ v) &&& (BitVec.allOnes 4 ++ 0#2 ++ BitVec.allOnes 2 ++ BitVec.allOnes 8) = _
  simp only [BitVec.and_append, BitVec.and_allOnes, BitVec.and_zero]

end FormatRI

/-- The tag of a word is its top four bits (R51). -/
theorem tag_append (t : BitVec 4) (low : BitVec 12) : tag (t ++ low) = t.toNat := by
  rw [tag_eq, toNat_append_add]
  omega

/-- A word whose tag is 0 or 7 to 15 does not decode (R55, R56). -/
theorem decode_of_illegal_tag {w : Word} (h : tag w = 0 ∨ 7 ≤ tag w) : decode w = .error .unknownOpcode := by
  rcases decode_tag w with ⟨_, _, hlo, hhi⟩ | ⟨e, _⟩
  · omega
  · exact e

/-- Settles O1, from the value of each format and the tags that decode. -/
theorem decodeReadsEveryFieldOfEveryWord : Obligations.DecodeReadsEveryFieldOfEveryWord := by
  refine ⟨decode_append_r3, decode_append_ri, fun t low ht => decode_of_illegal_tag ?_⟩
  rw [tag_append]
  exact ht.imp (congrArg BitVec.toNat) id

/-! What `encode` writes. -/

/-- A packed word of format R3 is its truncated fields with unused bits 0 (R60). -/
theorem packR3_eq_append (t d s1 s2 : Nat) : packR3 t d s1 s2 =
    BitVec.ofNat 4 t ++ 0#6 ++ BitVec.ofNat 2 d ++ BitVec.ofNat 2 s2 ++ BitVec.ofNat 2 s1 := by
  apply BitVec.eq_of_toNat_eq
  rw [toNat_append_r3]
  simp only [packR3, BitVec.toNat_ofNat]
  omega

/-- A packed word of format RI is its truncated fields with unused bits 0 (R60). -/
theorem packRI_eq_append (t r v : Nat) : packRI t r v =
    BitVec.ofNat 4 t ++ 0#2 ++ BitVec.ofNat 2 r ++ BitVec.ofNat 8 v := by
  apply BitVec.eq_of_toNat_eq
  rw [toNat_append_ri]
  simp only [packRI, BitVec.toNat_ofNat]
  omega

/-- Settles O2: each instruction is packed in one of the two formats. -/
theorem encodePacksAndTruncatesOperands : Obligations.EncodePacksAndTruncatesOperands :=
  ⟨fun d s1 s2 => ⟨packR3_eq_append 1 d s1 s2, packR3_eq_append 3 d s1 s2, packR3_eq_append 4 d s1 s2⟩,
    fun r v => ⟨packRI_eq_append 2 r v, packRI_eq_append 5 r v, packRI_eq_append 6 r v⟩, fun _ => rfl⟩

/-! Decoding what was encoded. -/

/-- The word of a toolchain instruction reads back with every operand cut to its field (R60, R61 (a)). -/
theorem decode_asmEncode (a : AsmInstr) : decode a.encode = .ok a.narrow := by
  obtain ⟨encode_r3, encode_ri, _⟩ := encodePacksAndTruncatesOperands
  cases a with
  | and d s1 s2 => rw [(encode_r3 d s1 s2).1, (decode_append_r3 ..).1]; rfl
  | add d s1 s2 => rw [(encode_r3 d s1 s2).2.1, (decode_append_r3 ..).2.1]; rfl
  | sub d s1 s2 => rw [(encode_r3 d s1 s2).2.2, (decode_append_r3 ..).2.2]; rfl
  | mov d v => rw [(encode_ri d v).1, (decode_append_ri ..).1]; rfl
  | ldr d v => rw [(encode_ri d v).2.1, (decode_append_ri ..).2.1]; rfl
  | str r v => rw [(encode_ri r v).2.2, (decode_append_ri ..).2.2]; rfl

/-- Operands that are in range are not cut (R60). -/
theorem narrow_toAsm (i : Instr) : i.toAsm.narrow = i := by
  cases i <;> simp [Instr.toAsm, AsmInstr.narrow]

/-- Decode inverts encode (R61 (a)). -/
theorem decode_encode (i : Instr) : decode (encode i) = .ok i :=
  (decode_asmEncode i.toAsm).trans (congrArg Except.ok (narrow_toAsm i))

/-- Settles O3: a machine instruction is a toolchain instruction whose operands are in range. -/
theorem decodeInvertsEncode : Obligations.DecodeInvertsEncode := decode_encode

/-! Encoding what was decoded. -/

/-- What a word decodes to is encoded by packing the word's own tag and fields in the format of its tag (R55, R60). -/
theorem encode_of_decode_eq_pack {w : Word} {i : Instr} (h : decode w = .ok i) :
    ((tag w = 1 ∨ tag w = 3 ∨ tag w = 4) ∧
        encode i = packR3 (tag w) (dstField w).val (src1Field w).val (src2Field w).val) ∨
      ((tag w = 2 ∨ tag w = 5 ∨ tag w = 6) ∧ encode i = packRI (tag w) (regRiField w).val (immField w).toNat) := by
  unfold decode at h
  split at h
  next ht => cases h; exact .inl ⟨.inl ht, by rw [ht]; rfl⟩
  next ht => cases h; exact .inr ⟨.inl ht, by rw [ht]; rfl⟩
  next ht => cases h; exact .inl ⟨.inr (.inl ht), by rw [ht]; rfl⟩
  next ht => cases h; exact .inl ⟨.inr (.inr ht), by rw [ht]; rfl⟩
  next ht => cases h; exact .inr ⟨.inr (.inl ht), by rw [ht]; rfl⟩
  next ht => cases h; exact .inr ⟨.inr (.inr ht), by rw [ht]; rfl⟩
  next => cases h

/-- Every word is the concatenation of some fields of format R3. -/
theorem exists_append_r3 (w : Word) :
    ∃ (t : BitVec 4) (u : BitVec 6) (d s2 s1 : BitVec 2), w = t ++ u ++ d ++ s2 ++ s1 := by
  refine ⟨w.extractLsb' 12 4, w.extractLsb' 6 6, w.extractLsb' 4 2, w.extractLsb' 2 2, w.extractLsb' 0 2, ?_⟩
  apply BitVec.eq_of_toNat_eq
  rw [toNat_append_r3]
  simp only [BitVec.extractLsb'_toNat, Nat.shiftRight_eq_div_pow]
  omega

/-- Every word is the concatenation of some fields of format RI. -/
theorem exists_append_ri (w : Word) : ∃ (t : BitVec 4) (u r : BitVec 2) (v : BitVec 8), w = t ++ u ++ r ++ v := by
  refine ⟨w.extractLsb' 12 4, w.extractLsb' 10 2, w.extractLsb' 8 2, w.extractLsb' 0 8, ?_⟩
  apply BitVec.eq_of_toNat_eq
  rw [toNat_append_ri]
  simp only [BitVec.extractLsb'_toNat, Nat.shiftRight_eq_div_pow]
  omega

/-- Packing a word's own fields of format R3 clears its bits 11:6. -/
theorem packR3_fields (w : Word) :
    packR3 (tag w) (dstField w).val (src1Field w).val (src2Field w).val = w &&& 0xF03F#16 := by
  obtain ⟨t, u, d, s2, s1, rfl⟩ := exists_append_r3 w
  rw [append_r3_and_mask, tag_append_r3, dstField_append_r3, src1Field_append_r3, src2Field_append_r3,
    packR3_eq_append]
  simp

/-- Packing a word's own fields of format RI clears its bits 11:10. -/
theorem packRI_fields (w : Word) : packRI (tag w) (regRiField w).val (immField w).toNat = w &&& 0xF3FF#16 := by
  obtain ⟨t, u, r, v, rfl⟩ := exists_append_ri w
  rw [append_ri_and_mask, tag_append_ri, regRiField_append_ri, immField_append_ri, packRI_eq_append]
  simp

/-- What a word decodes to is encoded as that word with the unused bits of its format cleared (R61 (b)). -/
theorem encode_of_decode {w : Word} {i : Instr} (h : decode w = .ok i) :
    ((tag w = 1 ∨ tag w = 3 ∨ tag w = 4) ∧ encode i = w &&& 0xF03F#16) ∨
      ((tag w = 2 ∨ tag w = 5 ∨ tag w = 6) ∧ encode i = w &&& 0xF3FF#16) := by
  simpa only [packR3_fields, packRI_fields] using encode_of_decode_eq_pack h

/-- Settles O5: the tag decides the format, and so the mask. -/
theorem encodeOfDecodeClearsUnusedBits : Obligations.EncodeOfDecodeClearsUnusedBits := by
  intro w i h
  rcases encode_of_decode h with ⟨ht, e⟩ | ⟨ht, e⟩
  · rw [if_pos ht, e]
  · rw [if_neg (by omega), e]

/-! The image of `encode`. -/

/-- No two instructions share a word (R61 (c)). -/
theorem encode_injective : Function.Injective encode := by
  intro i j h
  have hdec : decode (encode i) = decode (encode j) := congrArg decode h
  rw [decode_encode, decode_encode] at hdec
  exact Except.ok.inj hdec

/-- A word lies under a mask exactly when it has no bit outside it. -/
theorem and_mask_eq_self_iff {n : Nat} (w mask : BitVec n) : w &&& mask = w ↔ w &&& ~~~mask = 0#n := by
  constructor
  · intro h
    rw [← h, BitVec.and_assoc, BitVec.and_not_self]
    exact BitVec.and_zero
  · intro h
    calc w &&& mask = (w &&& mask) ||| (w &&& ~~~mask) := by rw [h, BitVec.or_zero]
      _ = w := by rw [← BitVec.and_or_distrib_left, BitVec.or_not_self, BitVec.and_allOnes]

/-- A word is the encoding of some instruction exactly when it decodes and is encoded to itself (R61). -/
theorem exists_encode_iff (w : Word) : (∃ i, encode i = w) ↔ ∃ i, decode w = .ok i ∧ encode i = w :=
  ⟨fun ⟨i, h⟩ => ⟨i, h ▸ decode_encode i, h⟩, fun ⟨i, _, h⟩ => ⟨i, h⟩⟩

/-- A word with a tag of 1 to 6 decodes (R55). -/
theorem exists_decode_ok {w : Word} (hlo : 1 ≤ tag w) (hhi : tag w ≤ 6) : ∃ i, decode w = .ok i := by
  rcases decode_tag w with ⟨i, e, _⟩ | ⟨_, ht⟩
  · exact ⟨i, e⟩
  · omega

/-- Settles O6: such a word decodes, and it is its own re-encoding exactly when its unused bits are already 0. -/
theorem encodeImageIsValidTagsWithZeroUnused : Obligations.EncodeImageIsValidTagsWithZeroUnused := by
  refine ⟨fun i j h => encode_injective h, fun w => ?_⟩
  have unused_r3 : w &&& 0xF03F#16 = w ↔ w &&& 0x0FC0#16 = 0#16 := and_mask_eq_self_iff w 0xF03F#16
  have unused_ri : w &&& 0xF3FF#16 = w ↔ w &&& 0x0C00#16 = 0#16 := and_mask_eq_self_iff w 0xF3FF#16
  rw [exists_encode_iff, ← unused_r3, ← unused_ri]
  constructor
  · rintro ⟨i, hdec, henc⟩
    rcases encode_of_decode hdec with ⟨ht, e⟩ | ⟨ht, e⟩
    · exact .inl ⟨ht, e.symm.trans henc⟩
    · exact .inr ⟨ht, e.symm.trans henc⟩
  · rintro (⟨ht, hw⟩ | ⟨ht, hw⟩)
    · obtain ⟨i, hdec⟩ := exists_decode_ok (w := w) (by omega) (by omega)
      have henc := encodeOfDecodeClearsUnusedBits w i hdec
      rw [if_pos ht, hw] at henc
      exact ⟨i, hdec, henc⟩
    · obtain ⟨i, hdec⟩ := exists_decode_ok (w := w) (by omega) (by omega)
      have henc := encodeOfDecodeClearsUnusedBits w i hdec
      rw [if_neg (by omega), hw] at henc
      exact ⟨i, hdec, henc⟩

end Sys2Proof.Machine
end

section
/-! SUPPORT. A program as bytes, the memory it was loaded into, and the core at one of its instructions (spec
30_encoding.md R62, 44_host_interface.md R105), and the statements about them. -/

namespace Sys2Proof.Machine

theorem lowByte_eq_extract (w : Word) : lowByte w = w.extractLsb' 0 8 := by
  conv_rhs => rw [← wordOfBytes_low_high w, wordOfBytes_extract_low]

theorem highByte_eq_extract (w : Word) : highByte w = w.extractLsb' 8 8 := by
  conv_rhs => rw [← wordOfBytes_low_high w, wordOfBytes_extract_high]

/-- Two bytes for each instruction (R62). -/
theorem programBytes_length (program : List Instr) : (programBytes program).length = 2 * program.length := by
  induction program with
  | nil => rfl
  | cons i rest ih =>
    simp only [programBytes, List.length_cons, ih]
    omega

/-- Instruction `k` stands at the offsets `2*k` and `2*k + 1`, low byte first (R62). -/
theorem programBytes_getElem? {program : List Instr} {k : Nat} {i : Instr} (h : program[k]? = some i) :
    (programBytes program)[2 * k]? = some (lowByte (encode i)) ∧
      (programBytes program)[2 * k + 1]? = some (highByte (encode i)) := by
  induction program generalizing k with
  | nil => simp at h
  | cons j rest ih =>
    cases k with
    | zero =>
      obtain rfl : j = i := by simpa using h
      exact ⟨rfl, rfl⟩
    | succ k => exact ih (by simpa using h)

/-- The loader's loop, started at instruction `n`, changes no cell outside the bytes of the instructions it writes
(R105). -/
theorem Memory.writeProgram_get_outside (program : List Instr) (m : Memory) (n a : Nat)
    (h : a < 2 * n ∨ 2 * (n + program.length) ≤ a) : (m.writeProgram n program).get a = m.get a := by
  induction program generalizing m n with
  | nil => rfl
  | cons i rest ih =>
    rw [List.length_cons] at h
    rw [Memory.writeProgram, ih _ _ (by omega), Memory.get_set_other _ _ (by omega), Memory.get_set_other _ _ (by omega)]

/-- The loader's loop, started at instruction `n`, leaves the program's bytes from offset `2*n` on (R62, R105). -/
theorem Memory.writeProgram_get_inside (program : List Instr) (m : Memory) (n a : Nat) (h : a < 2 * program.length) :
    (programBytes program)[a]? = some ((m.writeProgram n program).get (2 * n + a)) := by
  induction program generalizing m n a with
  | nil => simp at h
  | cons i rest ih =>
    rw [Memory.writeProgram]
    match a with
    | 0 =>
      rw [Memory.writeProgram_get_outside _ _ _ _ (by omega), Memory.get_set_other _ _ (by omega), Nat.add_zero,
        Memory.get_set_same]
      rfl
    | 1 =>
      rw [Memory.writeProgram_get_outside _ _ _ _ (by omega), Memory.get_set_same]
      rfl
    | a + 2 =>
      rw [List.length_cons] at h
      rw [show 2 * n + (a + 2) = 2 * (n + 1) + a by omega]
      exact ih _ (n + 1) a (by omega)

/-- A load that succeeds has room for the program and runs the loader's loop from offset 0 (R105). -/
theorem Memory.loadProgram_eq_ok_iff {m m' : Memory} {program : List Instr} :
    m.loadProgram program = .ok m' ↔ 2 * program.length ≤ m.capacity.val ∧ m.writeProgram 0 program = m' := by
  by_cases hfit : 2 * program.length ≤ m.capacity.val <;> simp [Memory.loadProgram, programFits, hfit]

/-- A loaded memory holds the program's bytes from address 0 (R62). -/
theorem Memory.loadProgram_get {m m' : Memory} {program : List Instr} (h : m.loadProgram program = .ok m') {a : Nat}
    (ha : a < 2 * program.length) : (programBytes program)[a]? = some (m'.get a) := by
  obtain ⟨_, rfl⟩ := Memory.loadProgram_eq_ok_iff.mp h
  simpa using Memory.writeProgram_get_inside program m 0 a ha

/-- Settles O8: the length and the offsets of `programBytes`, and the loader's loop, which leaves exactly those bytes. -/
theorem programBytesAreLittleEndianWords : Obligations.ProgramBytesAreLittleEndianWords := by
  refine fun program => ⟨programBytes_length program, fun k i hk => ?_, fun m m' h a ha => Memory.loadProgram_get h ha⟩
  rw [← lowByte_eq_extract, ← highByte_eq_extract]
  exact programBytes_getElem? hk

/-- A loaded memory has both bytes of instruction `k` below its capacity, and they are the instruction's word (R62). -/
theorem Memory.loadProgram_word {m m' : Memory} {program : List Instr} {k : Nat} {i : Instr}
    (h : m.loadProgram program = .ok m') (hk : program[k]? = some i) :
    2 * k + 1 < m'.capacity.val ∧ wordOfBytes (m'.get (2 * k)) (m'.get (2 * k + 1)) = encode i := by
  obtain ⟨hklt, _⟩ := List.getElem?_eq_some_iff.mp hk
  obtain ⟨hlow, hhigh⟩ := programBytes_getElem? hk
  rw [Memory.loadProgram_get h (by omega), Option.some.injEq] at hlow hhigh
  rw [hlow, hhigh, wordOfBytes_low_high]
  obtain ⟨hfit, rfl⟩ := Memory.loadProgram_eq_ok_iff.mp h
  rw [Memory.writeProgram_capacity]
  exact ⟨by omega, rfl⟩

/-- Settles O44: the word fetched at `2*k` is the encoding of instruction `k`, which decodes to that instruction. -/
theorem loadedInstructionIsTheOneExecuted : Obligations.LoadedInstructionIsTheOneExecuted := by
  rintro m m' program k i s hload hk rfl hfault hpc
  obtain ⟨hroom, hword⟩ := Memory.loadProgram_word hload hk
  rw [← hpc] at hroom hword
  have hfetched : wordAtPc s = encode i := hword
  have hstep := step_of_decode_ok ⟨hfault, hroom⟩ (hfetched ▸ decode_encode i)
  rw [hfetched] at hstep
  exact hstep

end Sys2Proof.Machine
end

section
/-! SUPPORT. The step by cases, as equations, and where it leaves `pc`, `ir` and the latch (spec 40_cycle.md R70 to R74,
R77), and the statements about it. -/

namespace Sys2Proof.Machine

/-- A halted core changes nothing (R70). -/
theorem step_of_halted {s : State} (h : s.fault ≠ none) : step s = .next s := by
  rcases step_cases s with ⟨_, e⟩ | ⟨hf, _⟩ | ⟨hs, _⟩ | ⟨hs, _⟩
  · exact e
  · exact absurd hf h
  · exact absurd hs.1 h
  · exact absurd hs.1 h

/-- A core that is not halted raises where a byte at `pc` is missing (R71). -/
theorem step_of_fetch_beyond {s : State} (hf : s.fault = none) (hc : s.mem.capacity.val ≤ s.pc.toNat + 1) :
    step s = .next (raise .addressErrorFetch s) := by
  rcases step_cases s with ⟨h, _⟩ | ⟨_, _, e⟩ | ⟨hs, _⟩ | ⟨hs, _⟩
  · exact absurd hf h
  · exact e
  · exact absurd hs.2 (Nat.not_lt.mpr hc)
  · exact absurd hs.2 (Nat.not_lt.mpr hc)

/-- The step of a core whose fetched word does not decode raises after the fetch's two writes (R72). -/
theorem step_of_decode_error {s : State} {x : DecodeError} (h : FetchSucceeds s)
    (hd : decode (wordAtPc s) = .error x) : step s = .next (raise .decodeError (s.afterFetch (wordAtPc s))) := by
  rcases step_cases_of_fetchSucceeds h with e | ⟨i, hi, _⟩
  · exact e
  · cases hd.symm.trans hi

/-- The execute phase completes, keeps `pc`, `ir` and the capacity, and sets the latch exactly where the instruction
names an address beyond the capacity (R73, R74, R112). -/
theorem exec_control (i : Instr) (s : State) :
    ∃ t, exec i s = .next t ∧ t.pc = s.pc ∧ t.ir = s.ir ∧ t.mem.capacity = s.mem.capacity ∧
      t.fault = if i.withinCapacity s.mem.capacity.val then s.fault else some .addressErrorExecute := by
  rcases exec_cases i s with ⟨d, v, _, hw, e⟩ | ⟨r, a, rfl, ha, e⟩ | ⟨a, hi, ha, e⟩
  · exact ⟨_, e, rfl, rfl, rfl, (if_pos hw).symm⟩
  · exact ⟨_, e, rfl, rfl, rfl, (if_pos ((withinCapacity_iff rfl _).mpr ha)).symm⟩
  · exact ⟨_, e, rfl, rfl, rfl, (if_neg (mt (withinCapacity_iff hi _).mp (Nat.not_lt.mpr ha))).symm⟩

/-- A step whose fetch succeeds completes with `pc` advanced by 2, for an illegal word too (R74). -/
theorem step_advances_pc {s : State} (h : FetchSucceeds s) :
    ∃ t, step s = .next t ∧ t.pc.toNat = s.pc.toNat + 2 ∧ t.mem.capacity = s.mem.capacity := by
  rcases step_cases_of_fetchSucceeds h with e | ⟨i, _, e⟩
  · exact ⟨_, e, pc_add_two h.2, rfl⟩
  · obtain ⟨t, et, hpc, _, hcap, _⟩ := exec_control i (s.afterFetch (wordAtPc s))
    exact ⟨t, e.trans et, (congrArg BitVec.toNat hpc).trans (pc_add_two h.2), hcap⟩

/-- Settles O28: the fetch advances `pc` and execute keeps it; a step without a successful fetch changes at most the
latch. -/
theorem programCounterAdvancesByTwo : Obligations.ProgramCounterAdvancesByTwo := by
  intro s
  by_cases h : FetchSucceeds s
  · obtain ⟨t, e, hpc, _⟩ := step_advances_pc h
    exact ⟨t, e, fun _ => hpc, fun hn => absurd h hn⟩
  · obtain ⟨f, e⟩ := step_of_not_fetchSucceeds h
    exact ⟨_, e, fun hs => absurd hs h, fun _ => rfl⟩

/-- Settles O29: both states take the same branch of the step, and in execute the latch depends only on the decoded
instruction and the capacity. -/
theorem controlInOneStepIgnoresRegisters : Obligations.ControlInOneStepIgnoresRegisters := by
  intro s f
  rcases step_cases s with ⟨hf, e⟩ | ⟨hf, hc, e⟩ | ⟨hs, ⟨x, hx⟩, e⟩ | ⟨hs, i, hd, e⟩
  · exact ⟨_, _, e, step_of_halted hf, rfl, rfl, rfl⟩
  · exact ⟨_, _, e, step_of_fetch_beyond hf hc, rfl, rfl, rfl⟩
  · exact ⟨_, _, e, step_of_decode_error hs hx, rfl, rfl, rfl⟩
  · have eu : step { s with regs := f } = exec i (State.afterFetch { s with regs := f } (wordAtPc s)) :=
      step_of_decode_ok hs hd
    obtain ⟨t, et, tpc, tir, _, tfault⟩ := exec_control i (s.afterFetch (wordAtPc s))
    obtain ⟨u, eu', upc, uir, _, ufault⟩ := exec_control i (State.afterFetch { s with regs := f } (wordAtPc s))
    exact ⟨t, u, e.trans et, eu.trans eu', tpc.trans upc.symm, tir.trans uir.symm, tfault.trans ufault.symm⟩

/-- Settles O24: the word given by its two bytes is the word at `pc`. -/
theorem stepRunsDecodedInstruction : Obligations.StepRunsDecodedInstruction := by
  intro s i w hf hc hw hd
  have hword : w = wordAtPc s := BitVec.eq_of_toNat_eq (hw.trans (wordOfBytes_toNat _ _).symm)
  subst hword
  exact step_of_decode_ok ⟨hf, hc⟩ hd

end Sys2Proof.Machine
end

section
/-! SUPPORT. The invariant of a run: each phase keeps it, and each raise leaves a latch that it explains (spec
40_cycle.md R75, 60_exceptions.md R111, R112). -/

namespace Sys2Proof.Machine

/-- A clear latch needs no explanation. -/
theorem faultExplained_of_fault_none {s : State} (h : s.fault = none) : FaultExplained s := by
  simp [FaultExplained, h]

/-- Raising an error that its operands explain keeps the invariant (R113). -/
theorem Inv.raise {s : State} {c : Cause} (h : Inv s) (hx : FaultExplained (raise c s)) : Inv (raise c s) :=
  ⟨h.memWf, h.pcEven, h.pcBound, hx⟩

/-- Writing a register keeps the invariant, which does not speak of registers. -/
theorem Inv.writeReg {s : State} (h : Inv s) (d : Reg) (v : Byte) : Inv (s.writeReg d v) :=
  ⟨h.memWf, h.pcEven, h.pcBound, h.faultExplained⟩

/-- Storing a byte that exists keeps the invariant of a core that is not halted (R33). -/
theorem Inv.store {s : State} (h : Inv s) (hf : s.fault = none) {a : Nat} (ha : a < s.mem.capacity.val) (v : Byte) :
    Inv (s.setMem (s.mem.set a v)) :=
  ⟨Memory.set_keeps_wf s.mem a v h.memWf ha, h.pcEven, h.pcBound, faultExplained_of_fault_none hf⟩

/-- The two writes of a successful fetch keep the invariant: `pc` stays even and at most `CAP` (R75). -/
theorem Inv.afterFetch {s : State} (h : Inv s) (hs : FetchSucceeds s) (w : Word) : Inv (s.afterFetch w) := by
  have hpc := pc_add_two hs.2
  have heven := h.pcEven
  have hroom := hs.2
  refine ⟨h.memWf, ?_, ?_, faultExplained_of_fault_none hs.1⟩
  · rw [State.afterFetch_pc]
    omega
  · rw [State.afterFetch_pc, State.afterFetch_mem]
    omega

/-- After a successful fetch the word in `ir` stands in memory at `pc - 2` (R71). -/
theorem memRead2_behind_fetch {s : State} (h : FetchSucceeds s) :
    2 ≤ (s.pc + 2).toNat ∧ memRead2 s.mem ((s.pc + 2).toNat - 2) = .ok (wordAtPc s) := by
  rw [pc_add_two h.2]
  exact ⟨Nat.le_add_left _ _, memRead2_of_lt h.2⟩

/-- A word that does not decode has an illegal tag (R55, R111). -/
theorem tag_of_decode_error {w : Word} {x : DecodeError} (h : decode w = .error x) : tag w = 0 ∨ 7 ≤ tag w := by
  rcases decode_tag w with ⟨_, hi, _⟩ | ⟨_, ht⟩
  · cases h.symm.trans hi
  · exact ht

/-- A word that decodes to an instruction with an address is a `Ldr` or a `Str` word, and the address is its immediate
field (R53, R97). -/
theorem tag_of_decode_address {w : Word} {i : Instr} {a : Byte} (h : decode w = .ok i) (ha : i.address? = some a) :
    (tag w = 5 ∨ tag w = 6) ∧ immField w = a := by
  unfold decode at h
  split at h
  next => cases h; cases ha
  next => cases h; cases ha
  next => cases h; cases ha
  next => cases h; cases ha
  next ht => cases h; exact ⟨.inl ht, Option.some.inj ha⟩
  next ht => cases h; exact ⟨.inr ht, Option.some.inj ha⟩
  next => cases h

/-- A DecodeError is explained by the word just fetched (R111). -/
theorem faultExplained_decodeError {s : State} {x : DecodeError} (h : FetchSucceeds s)
    (hd : decode (wordAtPc s) = .error x) : FaultExplained (raise .decodeError (s.afterFetch (wordAtPc s))) :=
  ⟨tag_of_decode_error hd, memRead2_behind_fetch h⟩

/-- An AddressError of the execute phase is explained by the word just fetched (R112). -/
theorem faultExplained_addressErrorExecute {s : State} {i : Instr} {a : Byte} (h : FetchSucceeds s)
    (hd : decode (wordAtPc s) = .ok i) (hi : i.address? = some a) (ha : s.mem.capacity.val ≤ a.toNat) :
    FaultExplained (raise .addressErrorExecute (s.afterFetch (wordAtPc s))) := by
  obtain ⟨ht, himm⟩ := tag_of_decode_address hd hi
  exact ⟨ht, himm ▸ ha, memRead2_behind_fetch h⟩

/-- Settles O36: the fetch keeps the invariant, and after it each way the step can end does. -/
theorem stepKeepsInvariant : Obligations.StepKeepsInvariant := by
  intro s h
  rcases step_cases s with ⟨_, e⟩ | ⟨_, hc, e⟩ | ⟨hs, ⟨x, hx⟩, e⟩ | ⟨hs, i, hd, e⟩
  · exact ⟨s, e, h⟩
  · exact ⟨_, e, h.raise hc⟩
  · exact ⟨_, e, (h.afterFetch hs _).raise (faultExplained_decodeError hs hx)⟩
  · have hfetched := h.afterFetch hs (wordAtPc s)
    rw [e]
    rcases exec_cases i (s.afterFetch (wordAtPc s)) with ⟨d, v, _, _, ex⟩ | ⟨r, a, _, ha, ex⟩ | ⟨a, hi, ha, ex⟩
    · exact ⟨_, ex, hfetched.writeReg d v⟩
    · exact ⟨_, ex, hfetched.store hs.1 ha _⟩
    · exact ⟨_, ex, hfetched.raise (faultExplained_addressErrorExecute hs hd hi ha)⟩

/-- Settles O37: an empty memory is canonical, `pc` is 0 and the latch is clear. -/
theorem resetMeetsInvariant : Obligations.ResetMeetsInvariant :=
  ⟨Memory.build_wf Config.capacity, rfl, Nat.zero_le _, faultExplained_of_fault_none rfl⟩

end Sys2Proof.Machine
end

section
/-! SUPPORT. `run` as repeated steps, and how long a run can go on (spec 40_cycle.md R75, R76, R78). -/

namespace Sys2Proof.Machine

/-- A core that is halted, or whose fetch fails, is halted after the step (R70, R71). -/
theorem step_halts_of_not_fetchSucceeds {s : State} (h : ¬ FetchSucceeds s) :
    ∃ t, step s = .next t ∧ t.fault ≠ none := by
  rcases step_cases s with ⟨hf, e⟩ | ⟨_, _, e⟩ | ⟨hs, _⟩ | ⟨hs, _⟩
  · exact ⟨_, e, hf⟩
  · exact ⟨_, e, Option.some_ne_none _⟩
  · exact absurd hs h
  · exact absurd hs h

/-- Every step completes with a next state (R114). -/
theorem step_completes (s : State) : ∃ t, step s = .next t := by
  obtain ⟨t, e, _⟩ := programCounterAdvancesByTwo s
  exact ⟨t, e⟩

/-- The steps of a machine go on from the state its first step answers. -/
theorem coreRun_succ {M : Host.Core} {s t : M.State} (h : M.step s = .next t) (n : Nat) :
    M.run (n + 1) s = M.run n t := by
  rw [Host.Core.run, h]

/-- Further steps of a halted core change nothing (R70, R116). -/
theorem coreRun_of_halted {s : State} (h : s.fault ≠ none) (n : Nat) : core.run n s = .next s := by
  induction n with
  | zero => rfl
  | succ n ih => exact (coreRun_succ (M := core) (step_of_halted h) n).trans ih

/-- Stopping at the first error makes no difference: the steps left out are those of a halted core (R76). -/
theorem run_eq_coreRun (n : Nat) (s : State) : run n s = core.run n s := by
  induction n generalizing s with
  | zero => rfl
  | succ n ih =>
    obtain ⟨t, e⟩ := step_completes s
    refine Eq.trans ?_ (coreRun_succ (M := core) e n).symm
    rw [run, e]
    by_cases ht : t.fault = none
    · exact (if_neg (by simp [State.halted, ht])).trans (ih t)
    · exact (if_pos (by simp [State.halted, Option.isSome_iff_ne_none, ht])).trans (coreRun_of_halted ht n).symm

/-- `run` goes on from the state its first step answers, halted or not (R76). -/
theorem run_succ {s t : State} (h : step s = .next t) (n : Nat) : run (n + 1) s = run n t := by
  rw [run_eq_coreRun, run_eq_coreRun]
  exact coreRun_succ (M := core) h n

/-- A run of a halted core changes nothing (R70, R76). -/
theorem run_of_halted {s : State} (h : s.fault ≠ none) (n : Nat) : run n s = .next s :=
  (run_eq_coreRun n s).trans (coreRun_of_halted h n)

/-- Every run completes with a next state (R76). -/
theorem run_completes (n : Nat) (s : State) : ∃ t, run n s = .next t := by
  induction n generalizing s with
  | zero => exact ⟨s, rfl⟩
  | succ n ih =>
    obtain ⟨t, e⟩ := step_completes s
    rw [run_succ e]
    exact ih t

/-- A run of at least one step from a state whose fetch fails ends halted (R71, R76). -/
theorem run_halts_of_not_fetchSucceeds {s : State} (h : ¬ FetchSucceeds s) (n : Nat) :
    ∃ t, run (n + 1) s = .next t ∧ t.fault ≠ none := by
  obtain ⟨t, e, ht⟩ := step_halts_of_not_fetchSucceeds h
  exact ⟨t, (run_succ e n).trans (run_of_halted ht n), ht⟩

/-- Settles O39, from the two facts above. -/
theorem runIsRepeatedStep : Obligations.RunIsRepeatedStep :=
  fun n s => ⟨run_eq_coreRun n s, run_completes n s⟩

/-- Settles O40, by induction on the number of steps: in a clean run the first fetch succeeds. -/
theorem cleanRunAdvancesTwicePerStep : Obligations.CleanRunAdvancesTwicePerStep := by
  intro n
  induction n with
  | zero =>
    intro s t hrun _
    cases hrun
    rfl
  | succ n ih =>
    intro s t hrun ht
    by_cases hs : FetchSucceeds s
    · obtain ⟨u, e, hpc, _⟩ := step_advances_pc hs
      have hrest := ih u t ((run_succ e n).symm.trans hrun) ht
      omega
    · obtain ⟨u, e, hu⟩ := run_halts_of_not_fetchSucceeds hs n
      cases hrun.symm.trans e
      exact absurd ht hu

/-- `n + 1` steps end halted where `n` successful fetches would take `pc` to the last byte or beyond: each one advances
`pc` by 2 under a fixed capacity, and the next one finds a byte missing (R75). -/
theorem run_halts_of_capacity_le (n : Nat) (s : State) (h : s.mem.capacity.val ≤ s.pc.toNat + 2 * n + 1) :
    ∃ t, run (n + 1) s = .next t ∧ t.fault ≠ none := by
  induction n generalizing s with
  | zero => exact run_halts_of_not_fetchSucceeds (fun hs => absurd hs.2 (Nat.not_lt.mpr h)) 0
  | succ n ih =>
    by_cases hs : FetchSucceeds s
    · obtain ⟨u, e, hpc, hcap⟩ := step_advances_pc hs
      rw [run_succ e]
      exact ih u (by rw [hcap]; omega)
    · exact run_halts_of_not_fetchSucceeds hs (n + 1)

/-- Settles O41: the bound at its worst, a start at address 0. -/
theorem everyRunHaltsWithinCapacity : Obligations.EveryRunHaltsWithinCapacity :=
  fun s => run_halts_of_capacity_le _ s (by omega)

end Sys2Proof.Machine
end

section
/-! SUPPORT. The execute phases of And, Add and Sub as equations on bit vectors (spec 41_alu.md R80 to R84), and the
statements about them. -/

namespace Sys2Proof.Machine

/-- `And` writes the bitwise AND of its sources (R80). -/
theorem exec_and (d s1 s2 : Reg) (s : State) :
    exec (.and d s1 s2) s = .next (s.writeReg d (s.readReg s1 &&& s.readReg s2)) := rfl

/-- `Add` writes the wrapped sum of its sources (R81). -/
theorem exec_add (d s1 s2 : Reg) (s : State) :
    exec (.add d s1 s2) s = .next (s.writeReg d (s.readReg s1 + s.readReg s2)) :=
  congrArg (fun v => Host.Outcome.next (s.writeReg d v)) (wrap8_add _ _)

/-- `Sub` writes the wrapped difference of its sources, `src1` the minuend (R82). -/
theorem exec_sub (d s1 s2 : Reg) (s : State) :
    exec (.sub d s1 s2) s = .next (s.writeReg d (s.readReg s1 - s.readReg s2)) :=
  congrArg (fun v => Host.Outcome.next (s.writeReg d v)) (wrap8_sub _ _)

/-- The wrapped difference of two bytes is the remainder of the exact one, never negative (R82). -/
theorem byte_toNat_sub (a b : Byte) : ((a - b).toNat : Int) = ((a.toNat : Int) - b.toNat) % 256 := by
  rw [BitVec.toNat_sub]
  omega

/-- Settles O9: bit `k` of a bitwise AND is the AND of the two bits `k`. -/
theorem andWritesBitwiseAnd : Obligations.AndWritesBitwiseAnd := by
  intro d s1 s2 s
  refine ⟨_, exec_and d s1 s2 s, fun k _ => ?_, writeReg_frame s d _⟩
  rw [State.readReg_writeReg_same, BitVec.getLsbD_and]

/-- Settles O10: the sum of two bit vectors is their sum modulo `2 ^ 8`. -/
theorem addWritesSumModulo256 : Obligations.AddWritesSumModulo256 := by
  intro d s1 s2 s
  refine ⟨_, exec_add d s1 s2 s, ?_, writeReg_frame s d _⟩
  rw [State.readReg_writeReg_same]
  exact BitVec.toNat_add _ _

/-- Settles O11: the wrapped difference, read as an integer. -/
theorem subWritesDifferenceModulo256 : Obligations.SubWritesDifferenceModulo256 := by
  intro d s1 s2 s
  refine ⟨_, exec_sub d s1 s2 s, ?_, writeReg_frame s d _⟩
  rw [State.readReg_writeReg_same]
  exact byte_toNat_sub _ _

/-- Settles O15: AND and wrapped addition commute, and the exchanged difference is the negated one. -/
theorem exchangingSources : Obligations.ExchangingSources := by
  intro d s1 s2 s
  refine ⟨?_, ?_, _, _, exec_sub d s1 s2 s, exec_sub d s2 s1 s, ?_⟩
  · rw [exec_and, exec_and, BitVec.and_comm]
  · rw [exec_add, exec_add, BitVec.add_comm]
  · rw [State.readReg_writeReg_same, State.readReg_writeReg_same,
      ← neg_sub (s.readReg s1) (s.readReg s2)]
    exact BitVec.toNat_neg _

/-- Settles O16: the addition finds the difference in `x[d]` and the subtrahend still in `x[b]`, as `b` is not `d`. -/
theorem addUndoesSub : Obligations.AddUndoesSub := by
  intro d a b s hb
  refine ⟨_, _, exec_sub d a b s, exec_add d d b _, ?_⟩
  rw [State.readReg_writeReg_same, State.readReg_writeReg_same, State.readReg_writeReg_other s _ hb,
    BitVec.sub_add_cancel]

end Sys2Proof.Machine
end

section
/-! SUPPORT. The execute phase of Mov as an equation (spec 42_mov.md R90), and the statement about it. -/

namespace Sys2Proof.Machine

/-- `Mov` writes its immediate, neither extended nor scaled (R90). -/
theorem exec_mov (d : Reg) (v : Byte) (s : State) : exec (.mov d v) s = .next (s.writeReg d v) := rfl

/-- Settles O12: one register write, which is read back and leaves the rest of the state alone. -/
theorem movWritesImmediate : Obligations.MovWritesImmediate :=
  fun d v s => ⟨_, exec_mov d v s, State.readReg_writeReg_same s d v, writeReg_frame s d v⟩

end Sys2Proof.Machine
end

section
/-! SUPPORT. The execute phases of Ldr and Str at an address that does not exist (spec 43_load_store.md R95, R96), and
the statements about both instructions. -/

namespace Sys2Proof.Machine

/-- A `Ldr` from an address that does not exist raises (R95). -/
theorem exec_ldr_of_ge (d : Reg) {a : Byte} {s : State} (h : s.mem.capacity.val ≤ effectiveAddress a) :
    exec (.ldr d a) s = .next (raise .addressErrorExecute s) :=
  (execLdr_eq d a s).elim (fun ⟨hc, _⟩ => absurd hc (Nat.not_lt.mpr h)) And.right

/-- A `Str` to an address that does not exist raises (R96). -/
theorem exec_str_of_ge (r : Reg) {a : Byte} {s : State} (h : s.mem.capacity.val ≤ effectiveAddress a) :
    exec (.str r a) s = .next (raise .addressErrorExecute s) :=
  (execStr_eq r a s).elim (fun ⟨hc, _⟩ => absurd hc (Nat.not_lt.mpr h)) And.right

/-- Settles O13: below `CAP` one register write, read back and framed; from `CAP` on the raise, which sets only the
latch. -/
theorem ldrLoadsByteOrRaises : Obligations.LdrLoadsByteOrRaises := by
  intro d a s
  constructor
  · intro h
    exact ⟨_, exec_ldr_of_lt d h, State.readReg_writeReg_same s d _, writeReg_frame s d _⟩
  · intro h
    exact ⟨_, exec_ldr_of_ge d h, rfl, raise_frame .addressErrorExecute s⟩

/-- Settles O14: below `CAP` one memory write, read back and framed; from `CAP` on the raise, which sets only the
latch. -/
theorem strStoresByteOrRaises : Obligations.StrStoresByteOrRaises := by
  intro r a s
  constructor
  · intro h
    exact ⟨_, exec_str_of_lt r h, Memory.get_set_same s.mem _ _, setMem_set_frame s _ _⟩
  · intro h
    exact ⟨_, exec_str_of_ge r h, rfl, raise_frame .addressErrorExecute s⟩

end Sys2Proof.Machine
end

section
/-! SUPPORT. The transactions of a step against what the step does (spec 44_host_interface.md R101, 20_memory.md R40),
and the statement about them. -/

namespace Sys2Proof.Machine

/-- A transaction issued only where its address exists is at most one, and at such an address (R101). -/
theorem guardedTransaction_bounds (x : Transaction) (capacity : Nat) :
    (if x.addr < capacity then [x] else []).length ≤ 1 ∧
      ∀ y ∈ if x.addr < capacity then [x] else [], y.addr < capacity := by
  split
  next h => exact ⟨Nat.le_refl 1, List.forall_mem_singleton.mpr h⟩
  next => exact ⟨Nat.zero_le 1, nofun⟩

/-- An instruction issues at most one data transaction, and only at an address that exists (R101). -/
theorem dataTransactions_bounds (i : Instr) (s : State) :
    (dataTransactions i s).length ≤ 1 ∧ ∀ x ∈ dataTransactions i s, x.addr < s.mem.capacity.val := by
  cases i with
  | and _ _ _ => exact ⟨Nat.zero_le 1, nofun⟩
  | mov _ _ => exact ⟨Nat.zero_le 1, nofun⟩
  | add _ _ _ => exact ⟨Nat.zero_le 1, nofun⟩
  | sub _ _ _ => exact ⟨Nat.zero_le 1, nofun⟩
  | ldr _ a => exact guardedTransaction_bounds (.dataRead (effectiveAddress a) _) s.mem.capacity.val
  | str _ a => exact guardedTransaction_bounds (.dataWrite (effectiveAddress a) _) s.mem.capacity.val

/-- An instruction with a destination register at most reads the memory, so serving it changes nothing (R18, R101). -/
theorem serve_dataTransactions_of_destination {i : Instr} {d : Reg} (h : i.destination? = some d) (s : State) :
    (dataTransactions i s).foldl Memory.serve s.mem = s.mem := by
  cases i with
  | and _ _ _ => rfl
  | mov _ _ => rfl
  | add _ _ _ => rfl
  | sub _ _ _ => rfl
  | ldr _ a => simp only [dataTransactions]; split <;> rfl
  | str _ _ => cases h

/-- The execute phase completes with the memory that serving its data transactions gives (R40, R101). -/
theorem exec_serves_dataTransactions (i : Instr) (s : State) :
    ∃ t, exec i s = .next t ∧ t.mem = (dataTransactions i s).foldl Memory.serve s.mem := by
  rcases exec_cases i s with ⟨d, v, hd, _, e⟩ | ⟨r, a, rfl, ha, e⟩ | ⟨a, hi, ha, e⟩
  · exact ⟨_, e, (serve_dataTransactions_of_destination hd s).symm⟩
  · refine ⟨_, e, ?_⟩
    rw [dataTransactions_str r ha]
    rfl
  · refine ⟨_, e, ?_⟩
    rw [dataTransactions_of_no_access fun b hb => Option.some.inj (hi.symm.trans hb) ▸ ha]
    rfl

/-- The two fetch reads of `s`, low byte first (R101, D13), before the transactions `data`. -/
def fetchReadsThen (s : State) (data : List Transaction) : List Transaction :=
  .fetchLow s.pc.toNat (s.mem.get s.pc.toNat) :: .fetchHigh (s.pc.toNat + 1) (s.mem.get (s.pc.toNat + 1)) :: data

/-- Where the fetched word does not decode, the two fetch reads are all (R101). -/
theorem transactions_of_decode_error {s : State} {x : DecodeError} (h : FetchSucceeds s)
    (hd : decode (wordAtPc s) = .error x) : transactions s = fetchReadsThen s [] := by
  rw [transactions_of_fetch h, hd, fetchReadsThen]

/-- Where the fetched word decodes, the data transactions of its instruction follow (R101). -/
theorem transactions_of_decode_ok {s : State} {i : Instr} (h : FetchSucceeds s) (hd : decode (wordAtPc s) = .ok i) :
    transactions s = fetchReadsThen s (dataTransactions i (s.afterFetch (wordAtPc s))) := by
  rw [transactions_of_fetch h, hd, fetchReadsThen]

/-- The fetch reads of a fetch that succeeds are below `CAP` (R71, R101). -/
theorem fetchReadsThen_addr_lt {s : State} (h : FetchSucceeds s) {data : List Transaction}
    (hdata : ∀ x ∈ data, x.addr < s.mem.capacity.val) : ∀ x ∈ fetchReadsThen s data, x.addr < s.mem.capacity.val :=
  List.forall_mem_cons.mpr ⟨Nat.lt_of_succ_lt h.2, List.forall_mem_cons.mpr ⟨h.2, hdata⟩⟩

/-- Settles O23: a failed fetch issues nothing, an illegal word only its fetch reads, and what execute does to the
memory is its data transaction. -/
theorem stepIsItsTransactions : Obligations.StepIsItsTransactions := by
  intro s
  by_cases h : FetchSucceeds s
  · rcases hd : decode (wordAtPc s) with x | i
    · have htx := transactions_of_decode_error h hd
      refine ⟨_, step_of_decode_error h hd, ?_, ?_, fun hn => absurd h hn,
        fun _ => ⟨[], htx, Nat.zero_le 1, nofun, nofun, fun _ => rfl⟩⟩
      · rw [htx]; rfl
      · rw [htx]; exact fetchReadsThen_addr_lt h nofun
    · have htx := transactions_of_decode_ok h hd
      obtain ⟨t, e, hmem⟩ := exec_serves_dataTransactions i (s.afterFetch (wordAtPc s))
      obtain ⟨hlength, haddr⟩ := dataTransactions_bounds i (s.afterFetch (wordAtPc s))
      refine ⟨t, (step_of_decode_ok h hd).trans e, ?_, ?_, fun hn => absurd h hn,
        fun _ => ⟨_, htx, hlength, ?_, ?_, ?_⟩⟩
      · rw [htx]; exact hmem
      · rw [htx]; exact fetchReadsThen_addr_lt h haddr
      · intro d a hi ha
        cases hi
        refine ⟨dataTransactions_ldr d ha, ?_⟩
        cases e.symm.trans (exec_ldr_of_lt d ha)
        exact State.readReg_writeReg_same _ d _
      · intro r a hi ha
        cases hi
        exact dataTransactions_str r ha
      · intro hno
        exact dataTransactions_of_no_access fun a ha => hno i a rfl ha
  · obtain ⟨f, e⟩ := step_of_not_fetchSucceeds h
    have htx := transactions_of_not_fetch h
    refine ⟨_, e, ?_, ?_, fun _ => htx, fun hs => absurd hs h⟩
    · rw [htx]; rfl
    · rw [htx]; nofun

end Sys2Proof.Machine
end

section
/-! SUPPORT. Loading a program, resetting the core, and the order of a session (spec 44_host_interface.md R105, R107,
70_reset_and_hazards.md R130), and the statements about them. -/

namespace Sys2Proof.Machine

/-- The reset core over a canonical memory meets the invariant: `pc` is 0 and the latch is clear (R130). -/
theorem Inv.resetWith {m : Memory} (h : m.wf = true) : Inv (State.resetWith m) :=
  ⟨h, rfl, Nat.zero_le _, faultExplained_of_fault_none rfl⟩

/-- Settles O38: loading keeps the memory canonical and reset does not touch it. -/
theorem loadAndResetMeetInvariant : Obligations.LoadAndResetMeetInvariant :=
  fun _ _ _ _ hm hload => ⟨.resetWith (Memory.loadProgram_keeps_wf hm hload), fun hs => .resetWith hs.memWf⟩

/-- A program longer than the memory does not load (R105, R120). -/
theorem Memory.loadProgram_of_too_long {m : Memory} {program : List Instr}
    (h : m.capacity.val < 2 * program.length) : m.loadProgram program = .error .tooLong :=
  if_neg (by simpa [programFits] using h)

/-- Settles O43: the loader's loop leaves the word of each instruction at its place, and every cell beyond the program
alone. -/
theorem loadProgramPlacesWords : Obligations.LoadProgramPlacesWords := by
  refine fun m program => ⟨Memory.loadProgram_of_too_long, fun hfit => ?_⟩
  have hload := Memory.loadProgram_eq_ok_iff.mpr ⟨hfit, rfl⟩
  refine ⟨_, hload, Memory.writeProgram_capacity program m 0, fun k i hk => ?_, fun a ha => ?_⟩
  · obtain ⟨_, hword⟩ := Memory.loadProgram_word hload hk
    rw [← hword, wordOfBytes_extract_low, wordOfBytes_extract_high]
    exact ⟨rfl, rfl⟩
  · exact Memory.writeProgram_get_outside program m 0 a (.inr (by omega))

/-- A load that succeeds keeps the session building, with the loaded memory (R105, R107). -/
theorem Session.apply_loadProgram_ok {m m' : Memory} {program : List Instr} (h : m.loadProgram program = .ok m') :
    Session.apply (.loadProgram program) (.building m) = .ok (.building m') := by
  simp [Session.apply, h]

/-- A load that fails is the session's error (R105, R120). -/
theorem Session.apply_loadProgram_error {m : Memory} {program : List Instr} {x : LoadError}
    (h : m.loadProgram program = .error x) :
    Session.apply (.loadProgram program) (.building m) = .error (.load x) := by
  simp [Session.apply, h]

/-- A script goes on from the session its first command leaves (R107). -/
theorem Session.script_cons_ok {c : HostCommand} {h h' : Session} (e : h.apply c = .ok h') (rest : List HostCommand) :
    Session.script (c :: rest) h = Session.script rest h' := by
  simp [Session.script, e]

/-- A script ends with the error of its first command that does not take place (R107). -/
theorem Session.script_cons_error {c : HostCommand} {h : Session} {x : HostError} (e : h.apply c = .error x)
    (rest : List HostCommand) : Session.script (c :: rest) h = .error x := by
  simp [Session.script, e]

/-- Settles O45: each command by the stage of the session it finds, and every run completes. -/
theorem hostLifecycleOrder : Obligations.HostLifecycleOrder := by
  refine fun c program => ⟨fun m hload => ?_, fun hlong rest => ?_, fun _ _ => ⟨rfl, rfl⟩, fun _ => rfl, fun s n => ?_⟩
  · exact Session.script_cons_ok (Session.apply_loadProgram_ok hload) [.reset]
  · exact Session.script_cons_error (Session.apply_loadProgram_error (Memory.loadProgram_of_too_long hlong)) rest
  · obtain ⟨t, e⟩ := run_completes n s
    refine ⟨t, e, ?_⟩
    rw [Session.apply, e, Session.ofOutcome]

end Sys2Proof.Machine
end

section
/-! SUPPORT. Where the latch can be set, and what the host recovers from the state a raise leaves (spec 60_exceptions.md
R111, R112, 70_reset_and_hazards.md R140), and the statements about them. -/

namespace Sys2Proof.Machine

/-- The execute phase either completes with the latch as it was or raises, for an address beyond the capacity that the
instruction names (R112). -/
theorem exec_keeps_latch_or_raises (i : Instr) (s : State) :
    (∃ t, exec i s = .next t ∧ t.fault = s.fault) ∨
      (∃ a, i.address? = some a ∧ s.mem.capacity.val ≤ effectiveAddress a ∧
        exec i s = .next (raise .addressErrorExecute s)) := by
  rcases exec_cases i s with ⟨d, v, _, _, e⟩ | ⟨r, a, _, _, e⟩ | hraise
  · exact .inl ⟨_, e, rfl⟩
  · exact .inl ⟨_, e, rfl⟩
  · exact .inr hraise

/-- Settles O18: an address is a byte, so none lies beyond 256 cells. -/
theorem noExecuteFaultAtFullCapacity : Obligations.NoExecuteFaultAtFullCapacity := by
  intro i s hcap
  rcases exec_keeps_latch_or_raises i s with hkeeps | ⟨a, _, ha, _⟩
  · exact hkeeps
  · have hbyte : effectiveAddress a < 256 := a.isLt
    omega

/-- After a raise behind a successful fetch, `pc - 2` is the address the instruction was fetched from (R111, R112). -/
theorem offendingInstruction_raise_afterFetch {s : State} (h : FetchSucceeds s) (w : Word) {c : Cause}
    (hc : c ≠ .addressErrorFetch) : (raise c (s.afterFetch w)).offendingInstruction = some s.pc.toNat := by
  have hback : (s.pc + 2).toNat - 2 = s.pc.toNat := by rw [pc_add_two h.2, Nat.add_sub_cancel]
  cases c with
  | decodeError => exact congrArg some hback
  | addressErrorFetch => exact absurd rfl hc
  | addressErrorExecute => exact congrArg some hback

/-- After a fetch that raises, `pc` still gives the first of its two addresses that does not exist (R112). -/
theorem offendingAddress_raise_fetch (s : State) :
    (raise .addressErrorFetch s).offendingAddress =
      some (if s.mem.capacity.val ≤ s.pc.toNat then s.pc.toNat else s.pc.toNat + 1) :=
  (apply_ite some _ _ _).symm

/-- After an execute phase that raises, `ir[7:0]` is the address the decoded instruction names (R112). -/
theorem offendingAddress_raise_execute {s : State} {w : Word} {i : Instr} {a : Byte} (hd : decode w = .ok i)
    (ha : i.address? = some a) :
    (raise .addressErrorExecute (s.afterFetch w)).offendingAddress = some (effectiveAddress a) :=
  congrArg (fun b => some (effectiveAddress b)) (tag_of_decode_address hd ha).2

/-- Settles O31: each way a step can end sets the latch for at most one of the three causes. -/
theorem hostRecoversOffendingAddress : Obligations.HostRecoversOffendingAddress := by
  intro s hf
  rcases step_cases s with ⟨hset, _⟩ | ⟨_, hc, e⟩ | ⟨hs, _, e⟩ | ⟨hs, i, hd, e⟩
  · exact absurd hf hset
  · exact ⟨_, e, nofun, fun _ => ⟨_, offendingAddress_raise_fetch s, memRead2_of_ge hc⟩, nofun⟩
  · exact ⟨_, e, fun _ => ⟨offendingInstruction_raise_afterFetch hs _ nofun, rfl⟩, nofun, nofun⟩
  · rw [e]
    rcases exec_keeps_latch_or_raises i (s.afterFetch (wordAtPc s)) with ⟨t, ex, ht⟩ | ⟨a, hi, ha, ex⟩
    · have hclear : t.fault = none := ht.trans hf
      exact ⟨t, ex, by simp [hclear]⟩
    · exact ⟨_, ex, nofun, nofun, fun _ => ⟨offendingInstruction_raise_afterFetch hs _ nofun, i, a, hd, hi,
        offendingAddress_raise_execute hd hi, memRead1_of_ge ha⟩⟩

end Sys2Proof.Machine
end

section
/-! SUPPORT. The decoder block: its outputs for the word of each instruction, what the datapath does under them, and the
statements about it (spec 30_encoding.md R55, R63, 41_alu.md R85). -/

namespace Sys2Proof.Machine

/-! A decoded word, by its tag and fields. -/

/-- The operands of the instruction stand in the word's fields (R52, R53). -/
def Instr.OperandsIn (w : Word) : Instr → Prop
  | .and d s1 s2 | .add d s1 s2 | .sub d s1 s2 => dstField w = d ∧ src1Field w = s1 ∧ src2Field w = s2
  | .mov r v | .ldr r v | .str r v => regRiField w = r ∧ immField w = v

/-- A word decodes only to the instruction of its tag, with the operands of its fields (R55). -/
theorem tag_and_operands_of_decode {w : Word} {i : Instr} (h : decode w = .ok i) :
    tag w = i.tagNumber ∧ Instr.OperandsIn w i := by
  unfold decode at h
  split at h
  next ht => cases h; exact ⟨ht, rfl, rfl, rfl⟩
  next ht => cases h; exact ⟨ht, rfl, rfl⟩
  next ht => cases h; exact ⟨ht, rfl, rfl, rfl⟩
  next ht => cases h; exact ⟨ht, rfl, rfl, rfl⟩
  next ht => cases h; exact ⟨ht, rfl, rfl⟩
  next ht => cases h; exact ⟨ht, rfl, rfl⟩
  next => cases h

/-- The instruction of an ALU operation (R85). -/
def AluOp.instr : AluOp → Reg → Reg → Reg → Instr
  | .and => .and
  | .add => .add
  | .sub => .sub

/-- The execute phase of an ALU instruction writes its operation's result (R80 to R82, R84). -/
theorem exec_aluInstr (op : AluOp) (d s1 s2 : Reg) (s : State) :
    exec (op.instr d s1 s2) s = .next (s.writeReg d (alu op (s.readReg s1) (s.readReg s2))) := by
  cases op <;> rfl

/-! The control table (R63). -/

theorem illegal_iff (w : Word) : (decoderOutputs w).illegal = true ↔ tag w = 0 ∨ 7 ≤ tag w := by
  simp [decoderOutputs]

theorem fmtR3_iff (w : Word) : (decoderOutputs w).fmtR3 = true ↔ tag w = 1 ∨ tag w = 3 ∨ tag w = 4 := by
  simp [decoderOutputs, or_assoc]

theorem fmtRi_iff (w : Word) : (decoderOutputs w).fmtRi = true ↔ tag w = 2 ∨ tag w = 5 ∨ tag w = 6 := by
  simp [decoderOutputs, or_assoc]

theorem regWe_iff (w : Word) : (decoderOutputs w).regWe = true ↔ 1 ≤ tag w ∧ tag w ≤ 5 := by
  simp [decoderOutputs]

theorem memRe_iff (w : Word) : (decoderOutputs w).memRe = true ↔ tag w = 5 := by
  simp [decoderOutputs]

theorem memWe_iff (w : Word) : (decoderOutputs w).memWe = true ↔ tag w = 6 := by
  simp [decoderOutputs]

/-- The `tag` output is bits 15:12 (R51). -/
theorem ofNat_tag_eq_extract (w : Word) : BitVec.ofNat 4 (tag w) = w.extractLsb' 12 4 := by
  apply BitVec.eq_of_toNat_eq
  rw [tag_eq, BitVec.toNat_ofNat, BitVec.extractLsb'_toNat, Nat.shiftRight_eq_div_pow]

/-- The row of an ALU instruction: the result of its operation on its sources to its destination. -/
theorem decoderOutputs_alu {w : Word} {op : AluOp} {d s1 s2 : Reg} (h : decode w = .ok (op.instr d s1 s2)) :
    (decoderOutputs w).regWe = true ∧ (decoderOutputs w).regWaddr = some d ∧ (decoderOutputs w).regWsel = some .alu ∧
    (decoderOutputs w).aluOp = some op ∧ (decoderOutputs w).rs1 = s1 ∧ (decoderOutputs w).rs2 = s2 ∧
    (decoderOutputs w).memRe = false ∧ (decoderOutputs w).memWe = false := by
  obtain ⟨ht, hf⟩ := tag_and_operands_of_decode h
  cases op with
  | and | add | sub =>
    obtain ⟨rfl, rfl, rfl⟩ := hf
    simp [decoderOutputs, ht, AluOp.instr, Instr.tagNumber]

/-- The row of Mov: the immediate to its destination. -/
theorem decoderOutputs_mov {w : Word} {d : Reg} {v : Byte} (h : decode w = .ok (.mov d v)) :
    (decoderOutputs w).regWe = true ∧ (decoderOutputs w).regWaddr = some d ∧ (decoderOutputs w).regWsel = some .imm ∧
    (decoderOutputs w).imm = v ∧ (decoderOutputs w).memRe = false ∧ (decoderOutputs w).memWe = false := by
  obtain ⟨ht, rfl, rfl⟩ := tag_and_operands_of_decode h
  simp [decoderOutputs, ht, Instr.tagNumber]

/-- The row of Ldr: the memory read data at its address to its destination. -/
theorem decoderOutputs_ldr {w : Word} {d : Reg} {a : Byte} (h : decode w = .ok (.ldr d a)) :
    (decoderOutputs w).regWe = true ∧ (decoderOutputs w).regWaddr = some d ∧
    (decoderOutputs w).regWsel = some .memory ∧ (decoderOutputs w).memRe = true ∧
    (decoderOutputs w).memAddr = some a ∧ (decoderOutputs w).memWe = false := by
  obtain ⟨ht, rfl, rfl⟩ := tag_and_operands_of_decode h
  simp [decoderOutputs, ht, Instr.tagNumber]

/-- The row of Str: its source register to its address, and no register written. -/
theorem decoderOutputs_str {w : Word} {r : Reg} {a : Byte} (h : decode w = .ok (.str r a)) :
    (decoderOutputs w).regWe = false ∧ (decoderOutputs w).memRe = false ∧ (decoderOutputs w).memWe = true ∧
    (decoderOutputs w).memAddr = some a ∧ ∀ s : State, (decoderOutputs w).memWdata s = s.readReg r := by
  obtain ⟨ht, rfl, rfl⟩ := tag_and_operands_of_decode h
  simp [decoderOutputs, ht, Instr.tagNumber, Control.memWdata]

/-- The row of an illegal word: `illegal`, and no enable. -/
theorem decoderOutputs_illegal {w : Word} {x : DecodeError} (h : decode w = .error x) :
    (decoderOutputs w).illegal = true ∧ (decoderOutputs w).regWe = false ∧ (decoderOutputs w).memRe = false ∧
    (decoderOutputs w).memWe = false := by
  have ht := tag_of_decode_error h
  simp only [← Bool.not_eq_true, illegal_iff, regWe_iff, memRe_iff, memWe_iff]
  omega

/-- Settles O34: the outputs that are bits or tag conditions of any word, then one row for each instruction and one for
the illegal words. -/
theorem controlOutputsFollowTable : Obligations.ControlOutputsFollowTable := by
  refine ⟨fun w => ⟨ofNat_tag_eq_extract w, illegal_iff w, fmtR3_iff w, fmtRi_iff w, regField_eq_extract w 0,
      regField_eq_extract w 2, regField_eq_extract w 4, regField_eq_extract w 8, immField_eq_extract w, regWe_iff w,
      memRe_iff w, memWe_iff w⟩,
    fun w d s1 s2 op h => decoderOutputs_alu ?_, fun _ _ _ => decoderOutputs_mov, fun _ _ _ => decoderOutputs_ldr,
    fun _ _ _ => decoderOutputs_str, fun _ _ => decoderOutputs_illegal⟩
  rcases h with ⟨hd, rfl⟩ | ⟨hd, rfl⟩ | ⟨hd, rfl⟩ <;> exact hd

/-- `alu_op` is unused exactly outside format R3 (log entry 14). -/
theorem aluOp_eq_none_iff (w : Word) : (decoderOutputs w).aluOp = none ↔ (decoderOutputs w).fmtR3 = false := by
  rw [← Bool.not_eq_true, fmtR3_iff]
  simp [decoderOutputs, ite_eq_iff]

/-- `reg_waddr` is unused exactly where no register is written (log entry 14). -/
theorem regWaddr_eq_none_iff (w : Word) : (decoderOutputs w).regWaddr = none ↔ (decoderOutputs w).regWe = false := by
  rw [← Bool.not_eq_true, regWe_iff]
  simp only [decoderOutputs, Bool.or_eq_true, beq_iff_eq, ite_eq_iff, reduceCtorEq, and_false, false_or, and_true]
  omega

/-- `reg_wsel` is unused exactly where no register is written (log entry 14). -/
theorem regWsel_eq_none_iff (w : Word) : (decoderOutputs w).regWsel = none ↔ (decoderOutputs w).regWe = false := by
  rw [← Bool.not_eq_true, regWe_iff]
  simp only [decoderOutputs, Bool.or_eq_true, beq_iff_eq, ite_eq_iff, reduceCtorEq, and_false, false_or, and_true]
  omega

/-- `mem_addr` is unused exactly where the data memory is not enabled (log entry 14). -/
theorem memAddr_eq_none_iff (w : Word) :
    (decoderOutputs w).memAddr = none ↔ (decoderOutputs w).memRe = false ∧ (decoderOutputs w).memWe = false := by
  rw [← Bool.not_eq_true, ← Bool.not_eq_true, memRe_iff, memWe_iff]
  simp [decoderOutputs]

/-- Settles O35, output by output: each is `none` outside the tags that use it. -/
theorem unusedControlOutputsAreNone : Obligations.UnusedControlOutputsAreNone :=
  fun w => ⟨aluOp_eq_none_iff w, regWaddr_eq_none_iff w, regWsel_eq_none_iff w, memAddr_eq_none_iff w⟩

/-! The execute phase that the outputs drive. -/

/-- Outputs that enable the write port and no store, and are not suppressed, write the one register (R63, R84). -/
theorem Control.execute_writeReg {c : Control} {s : State} {d : Reg} {v : Byte}
    (hs : c.suppressed s.mem.capacity.val = false) (hre : c.regWe = true) (hd : c.regWaddr = some d)
    (hv : c.writeData s = some v) (hwe : c.memWe = false) : c.execute s = s.writeReg d v := by
  simp [Control.execute, Control.writeBack, Control.store, hs, hre, hd, hv, hwe, State.writeReg]

/-- An access to an address that does not exist is suppressed and raises (R63, R112). -/
theorem Control.execute_raise {c : Control} {s : State} {a : Byte} (ha : c.memAddr = some a)
    (hc : s.mem.capacity.val ≤ a.toNat) : c.execute s = raise .addressErrorExecute s := by
  simp [Control.execute, Control.suppressed, ha, hc]

/-- A store to an address that exists takes place, and no register is written (R63). -/
theorem Control.execute_store {c : Control} {s : State} {a : Byte} (ha : c.memAddr = some a)
    (hc : a.toNat < s.mem.capacity.val) (hre : c.regWe = false) (hwe : c.memWe = true) :
    c.execute s = s.setMem (s.mem.set a.toNat (c.memWdata s)) := by
  simp [Control.execute, Control.suppressed, Control.writeBack, Control.store, ha, hc, hre, hwe, State.setMem]

/-- A word that enables no memory access is not suppressed (R63). -/
theorem suppressed_of_no_access {w : Word} (hre : (decoderOutputs w).memRe = false)
    (hwe : (decoderOutputs w).memWe = false) (capacity : Nat) : (decoderOutputs w).suppressed capacity = false := by
  rw [Control.suppressed, (memAddr_eq_none_iff w).mpr ⟨hre, hwe⟩]

/-- The outputs for an ALU word drive what the instruction does. -/
theorem execute_alu {w : Word} {op : AluOp} {d s1 s2 : Reg} (h : decode w = .ok (op.instr d s1 s2)) (s : State) :
    exec (op.instr d s1 s2) s = .next ((decoderOutputs w).execute s) := by
  obtain ⟨hre, hd, hsel, hop, h1, h2, hmr, hmw⟩ := decoderOutputs_alu h
  have hv : (decoderOutputs w).writeData s = some (alu op (s.readReg s1) (s.readReg s2)) := by
    simp [Control.writeData, hsel, hop, h1, h2]
  rw [exec_aluInstr, Control.execute_writeReg (suppressed_of_no_access hmr hmw _) hre hd hv hmw]

/-- The outputs for a Mov word drive what the instruction does. -/
theorem execute_mov {w : Word} {d : Reg} {v : Byte} (h : decode w = .ok (.mov d v)) (s : State) :
    exec (.mov d v) s = .next ((decoderOutputs w).execute s) := by
  obtain ⟨hre, hd, hsel, himm, hmr, hmw⟩ := decoderOutputs_mov h
  have hv : (decoderOutputs w).writeData s = some v := by simp [Control.writeData, hsel, himm]
  rw [exec_mov, Control.execute_writeReg (suppressed_of_no_access hmr hmw _) hre hd hv hmw]

/-- The outputs for a Ldr word drive what the instruction does, the suppression included. -/
theorem execute_ldr {w : Word} {d : Reg} {a : Byte} (h : decode w = .ok (.ldr d a)) (s : State) :
    exec (.ldr d a) s = .next ((decoderOutputs w).execute s) := by
  obtain ⟨hre, hd, hsel, _, ha, hmw⟩ := decoderOutputs_ldr h
  by_cases hc : effectiveAddress a < s.mem.capacity.val
  · have hs : (decoderOutputs w).suppressed s.mem.capacity.val = false := by
      simpa [Control.suppressed, ha, effectiveAddress] using hc
    have hv : (decoderOutputs w).writeData s = some (s.mem.get (effectiveAddress a)) := by
      simp [Control.writeData, hsel, ha, effectiveAddress]
    rw [exec_ldr_of_lt d hc, Control.execute_writeReg hs hre hd hv hmw]
  · rw [exec_ldr_of_ge d (Nat.not_lt.mp hc), Control.execute_raise ha (Nat.not_lt.mp hc)]

/-- The outputs for a Str word drive what the instruction does, the suppression included. -/
theorem execute_str {w : Word} {r : Reg} {a : Byte} (h : decode w = .ok (.str r a)) (s : State) :
    exec (.str r a) s = .next ((decoderOutputs w).execute s) := by
  obtain ⟨hre, _, hmw, ha, hdata⟩ := decoderOutputs_str h
  by_cases hc : effectiveAddress a < s.mem.capacity.val
  · rw [exec_str_of_lt r hc, Control.execute_store ha hc hre hmw, hdata]
    rfl
  · rw [exec_str_of_ge r (Nat.not_lt.mp hc), Control.execute_raise ha (Nat.not_lt.mp hc)]

/-- The execute phase of the rules is the one that the outputs for the decoded word drive (R63, R73). -/
theorem exec_eq_execute {w : Word} {i : Instr} (h : decode w = .ok i) (s : State) :
    exec i s = .next ((decoderOutputs w).execute s) := by
  cases i with
  | and _ _ _ => exact execute_alu (op := .and) h s
  | add _ _ _ => exact execute_alu (op := .add) h s
  | sub _ _ _ => exact execute_alu (op := .sub) h s
  | mov _ _ => exact execute_mov h s
  | ldr _ _ => exact execute_ldr h s
  | str _ _ => exact execute_str h s

/-- A word that decodes is not illegal (R55, R63). -/
theorem not_illegal_of_decode {w : Word} {i : Instr} (h : decode w = .ok i) : (decoderOutputs w).illegal = false := by
  rw [← Bool.not_eq_true, illegal_iff]
  intro ht
  cases h.symm.trans (decode_of_illegal_tag ht)

/-- The fetch phase of a core whose fetch succeeds (R71). -/
theorem fetch_of_fetchSucceeds {s : State} (h : FetchSucceeds s) : fetch s = .ok (s.afterFetch (wordAtPc s)) :=
  (fetch_eq s).elim And.right fun ⟨hc, _⟩ => absurd h.2 (Nat.not_lt.mpr hc)

/-- Where the fetch succeeds, the block's step goes by the outputs for the fetched word (R63). -/
theorem blockStep_of_fetchSucceeds {s : State} (h : FetchSucceeds s) :
    blockStep s = if (decoderOutputs (wordAtPc s)).illegal then raise .decodeError (s.afterFetch (wordAtPc s))
      else (decoderOutputs (wordAtPc s)).execute (s.afterFetch (wordAtPc s)) := by
  have hrun : s.halted = false := by simp [State.halted, h.1]
  rw [blockStep, hrun, fetch_of_fetchSucceeds h]
  rfl

/-- A halted core changes nothing under the block's step either (R70). -/
theorem blockStep_of_halted {s : State} (h : s.fault ≠ none) : blockStep s = s := by
  simp [blockStep, State.halted, Option.isSome_iff_ne_none, h]

/-- The block's step raises where a byte at `pc` is missing (R71). -/
theorem blockStep_of_fetch_beyond {s : State} (hf : s.fault = none) (hc : s.mem.capacity.val ≤ s.pc.toNat + 1) :
    blockStep s = raise .addressErrorFetch s := by
  rcases fetch_eq s with ⟨h, _⟩ | ⟨_, x, e⟩
  · exact absurd h (Nat.not_lt.mpr hc)
  · simp [blockStep, State.halted, hf, e]

/-- Settles O33: both steps take the same branch, and in execute the outputs drive what the decoded instruction does. -/
theorem blockStepRefinesStep : Obligations.BlockStepRefinesStep := by
  intro s
  rcases step_cases s with ⟨hf, e⟩ | ⟨hf, hc, e⟩ | ⟨hs, ⟨x, hx⟩, e⟩ | ⟨hs, i, hd, e⟩
  · rw [e, blockStep_of_halted hf]
  · rw [e, blockStep_of_fetch_beyond hf hc]
  · rw [e, blockStep_of_fetchSucceeds hs, if_pos (decoderOutputs_illegal hx).1]
  · rw [e, blockStep_of_fetchSucceeds hs, not_illegal_of_decode hd, exec_eq_execute hd]
    rfl

end Sys2Proof.Machine
end

section
/-! SUPPORT. The state a step leaves, raise by raise (spec 60_exceptions.md R110 to R116), and the statements about the
latch and its reset (70_reset_and_hazards.md R130). -/

namespace Sys2Proof.Machine

/-- A `Ldr` or `Str` word decodes to an instruction that names the word's immediate field as its address (R53, R97). -/
theorem exists_decode_address {w : Word} (ht : tag w = 5 ∨ tag w = 6) :
    ∃ i, decode w = .ok i ∧ i.address? = some (immField w) := by
  rcases ht with ht | ht
  · exact ⟨.ldr (regRiField w) (immField w), by simp [decode, ht], rfl⟩
  · exact ⟨.str (regRiField w) (immField w), by simp [decode, ht], rfl⟩

/-- The execute phase raises for an address that does not exist (R112). -/
theorem exec_of_address_ge {i : Instr} {a : Byte} {s : State} (hi : i.address? = some a)
    (ha : s.mem.capacity.val ≤ effectiveAddress a) : exec i s = .next (raise .addressErrorExecute s) := by
  cases i with
  | and _ _ _ => cases hi
  | mov _ _ => cases hi
  | add _ _ _ => cases hi
  | sub _ _ _ => cases hi
  | ldr d b => cases hi; exact exec_ldr_of_ge d ha
  | str r b => cases hi; exact exec_str_of_ge r ha

/-- What a word decodes to is within the capacity where the address field of a `Ldr` or `Str` word is (C2). -/
theorem withinCapacity_of_decode {w : Word} {i : Instr} {capacity : Nat} (h : decode w = .ok i)
    (hc : tag w = 5 ∨ tag w = 6 → w.toNat % 256 < capacity) : i.withinCapacity capacity = true := by
  rcases hi : i.address? with _ | a
  · rw [Instr.withinCapacity, hi]
  · obtain ⟨ht, rfl⟩ := tag_of_decode_address h hi
    rw [withinCapacity_iff hi, immField_toNat]
    exact hc ht

/-- Settles O25: one clause for each way the step can end. -/
theorem stateAfterEachRaise : Obligations.StateAfterEachRaise := by
  intro s hf
  refine ⟨step_of_fetch_beyond hf, fun hs ht => step_of_decode_error hs (decode_of_illegal_tag ht),
    fun hs ht hc => ?_, fun hs hlo hhi hc => ?_⟩
  · obtain ⟨i, hd, hi⟩ := exists_decode_address ht
    have ha : s.mem.capacity.val ≤ effectiveAddress (immField (wordAtPc s)) := hc.trans_eq (immField_toNat _).symm
    exact (step_of_decode_ok hs hd).trans (exec_of_address_ge hi ha)
  · obtain ⟨i, hd⟩ := exists_decode_ok hlo hhi
    obtain ⟨t, e, hpc, hir, _, hfault⟩ := exec_control i (s.afterFetch (wordAtPc s))
    have hw : i.withinCapacity (s.afterFetch (wordAtPc s)).mem.capacity.val = true := withinCapacity_of_decode hd hc
    exact ⟨t, (step_of_decode_ok hs hd).trans e, by rw [hfault, if_pos hw]; exact hf, hpc, hir⟩

/-- Settles O26, from the step and the run of a halted core. -/
theorem haltedUntilReset : Obligations.HaltedUntilReset :=
  fun _ h => ⟨step_of_halted h, run_of_halted h, rfl⟩

/-- Settles O32: the codes and kinds are those of the table, and the report is absent exactly with the latch. -/
theorem errorCodesAndKinds : Obligations.ErrorCodesAndKinds :=
  ⟨rfl, rfl, rfl, rfl, rfl, rfl, rfl, fun _ => ⟨Option.map_eq_none_iff, rfl⟩⟩

/-- Each register of the reset core is 0 (R19, D4). -/
theorem readReg_resetWith (m : Memory) (r : Reg) : (State.resetWith m).readReg r = 0 := by
  fin_cases r <;> rfl

/-- Settles O42: reset gives every element but the memory a fixed value. -/
theorem resetValues : Obligations.ResetValues :=
  ⟨fun s => ⟨rfl, rfl, rfl, readReg_resetWith s.mem, rfl⟩, rfl, rfl⟩

end Sys2Proof.Machine
end

section
/-! SUPPORT. The remaining statements about words (spec 30_encoding.md R60, R61, 95_test_vectors.md V-E1, V-E2). -/

namespace Sys2Proof.Machine

/-- Settles O4, by the round trip of each format. -/
theorem decodeOfToolchainWordIsNarrowed : Obligations.DecodeOfToolchainWordIsNarrowed := decode_asmEncode

/-- Settles O7, word by word. -/
theorem writtenOutWordsDecode : Obligations.WrittenOutWordsDecode :=
  ⟨by decide, by decide, by decide, by decide, by decide, by decide, by decide, by decide, by decide⟩

end Sys2Proof.Machine
end
